-- ==== Sys2Proof/Word.lean ====
section
/-! DEFINITION. The word types of the BFE: a byte of the buffer, a 64-bit operand or register, the 160-bit
digest, and the two words that travel on the channels (spec 00_scope.md R9, 30_encoding.md R82, R85). -/

namespace Sys2Proof

/-- One byte: a stored index, eight flags, the operand `b`, an opcode, a status code. -/
abbrev Byte := BitVec 8

/-- The 64-bit word of the operand `a`, of a control register and of the response data. -/
abbrev U64 := BitVec 64

/-- The 160-bit digest; digest bit `j` is the bit of weight `2^j` (20_memory.md R58). -/
abbrev Digest := BitVec 160

/-- A command word, 256 bits (30_encoding.md R82). -/
abbrev CmdWord := BitVec 256

/-- A response word, 80 bits (30_encoding.md R85). -/
abbrev RspWord := BitVec 80

end Sys2Proof
end

