-- ==== Sys2Proof/Syntax.lean ====
section
/-! DEFINITION. The ten commands of BFE-1 with their operands (spec 30_encoding.md R83, R88; opcode_table.json).
Every operand is the unsigned value of its field (R84). RDREG's two rows of the table are one command. -/

namespace Sys2Proof

/-- A command of BFE-1. -/
inductive Instr where
  /-- VALIDATE hc, l2: run the parameter validator (40_validate.md R110). -/
  | validate (hc : U64) (l2 : Byte)
  /-- CONFIG hc, l2: create a filter (41_lifecycle.md R121). -/
  | config (hc : U64) (l2 : Byte)
  /-- RELEASE: destroy the active filter (41_lifecycle.md R122). -/
  | release
  /-- RDREG n: read control register n (41_lifecycle.md R123). -/
  | rdreg (n : Byte)
  /-- SRESET: put the engine into its reset state (41_lifecycle.md R124). -/
  | sreset
  /-- BUFRD off: read one byte of the buffer (42_buffer.md R141). -/
  | bufrd (off : U64)
  /-- BUFWR off, byte: write one byte of the buffer (42_buffer.md R142). -/
  | bufwr (off : U64) (byte : Byte)
  /-- HASHEVAL k, dg: evaluate hash function k (43_engine.md R150). -/
  | hasheval (k : U64) (dg : Digest)
  /-- INSERT dg: set the flags the digest selects (43_engine.md R153). -/
  | insert (dg : Digest)
  /-- QUERY dg: test the flags the digest selects (43_engine.md R154). -/
  | query (dg : Digest)
deriving DecidableEq, Repr

end Sys2Proof
end

