-- ==== Sys2Proof/WellFormed.lean ====
section
/-! DEFINITION. Which command terms stand for a command word. Every operand but one may take every value of its
field; RDREG names one of the registers 0x00 to 0x09 (spec 30_encoding.md R83, R92). -/

namespace Sys2Proof

/-- The term is a command of BFE-1: a register number is not a reserved one (30_encoding.md R92). -/
def Instr.wf : Instr → Bool
  | .validate _ _ => true
  | .config _ _ => true
  | .release => true
  | .rdreg n => decide (n ≤ 0x09#8)
  | .sreset => true
  | .bufrd _ => true
  | .bufwr _ _ => true
  | .hasheval _ _ => true
  | .insert _ => true
  | .query _ => true

end Sys2Proof
end

