-- ==== Sys2Proof/Decode.lean ====
section
/-! DEFINITION. The command word and its decoder, total on every 256-bit word and rejecting by reason (spec
30_encoding.md R82 to R92), the encoder, the opcode table as mask and match rows (opcode_table.json), and the byte
order of words on a byte-wide transport (20_memory.md R59). Decoding reads no state (R89). -/

namespace Sys2Proof

/-- Why a word is illegal. The engine answers every reason alike, with E_ILLEGAL (30_encoding.md R90 to R92). -/
inductive Illegal where
  /-- The reserved field `z` is not zero (R91). -/
  | nonzeroReserved (z : BitVec 16)
  /-- The opcode is one of the 246 undefined values (R90). -/
  | undefinedOp (op : Byte)
  /-- A field the command does not use is not zero (R91). -/
  | nonzeroUnused (op : Byte)
  /-- RDREG names a reserved control register, 0x0A or more (R92). -/
  | reservedRegister (n : Byte)
deriving DecidableEq, Repr

/-! ### Fields of the command word (R82) -/

/-- `op = w[255:248]`. -/
def opField (w : CmdWord) : Byte := w.extractLsb' 248 8

/-- `b = w[247:240]`. -/
def bField (w : CmdWord) : Byte := w.extractLsb' 240 8

/-- `z = w[239:224]`. -/
def zField (w : CmdWord) : BitVec 16 := w.extractLsb' 224 16

/-- `a = w[223:160]`. -/
def aField (w : CmdWord) : U64 := w.extractLsb' 160 64

/-- `d = w[159:0]`. -/
def dField (w : CmdWord) : Digest := w.extractLsb' 0 160

/-- The word with the given fields and `z = 0`. -/
def packFields (op b : Byte) (a : U64) (d : Digest) : CmdWord :=
  op ++ b ++ 0#16 ++ a ++ d

/-! ### Opcodes and mnemonics (R88) -/

/-- The opcode of a command. -/
def Instr.opcode : Instr → Byte
  | .validate _ _ => 0x01#8
  | .config _ _ => 0x02#8
  | .release => 0x03#8
  | .rdreg _ => 0x04#8
  | .sreset => 0x05#8
  | .bufrd _ => 0x10#8
  | .bufwr _ _ => 0x11#8
  | .hasheval _ _ => 0x20#8
  | .insert _ => 0x21#8
  | .query _ => 0x22#8

/-- The mnemonic of a command, as opcode_table.json spells it. -/
def Instr.mnemonic : Instr → String
  | .validate _ _ => "VALIDATE"
  | .config _ _ => "CONFIG"
  | .release => "RELEASE"
  | .rdreg _ => "RDREG"
  | .sreset => "SRESET"
  | .bufrd _ => "BUFRD"
  | .bufwr _ _ => "BUFWR"
  | .hasheval _ _ => "HASHEVAL"
  | .insert _ => "INSERT"
  | .query _ => "QUERY"

/-! ### The decoder (R89) -/

/-- The command when every field it does not use is zero, else a rejection (R91). -/
def unlessUnused (op : Byte) (unusedZero : Bool) (i : Instr) : Except Illegal Instr :=
  if unusedZero then .ok i else .error (.nonzeroUnused op)

/-- RDREG's operand: the register numbers 0x0A to 0xFF are reserved (R92). -/
def decodeRdreg (b : Byte) (unusedZero : Bool) : Except Illegal Instr :=
  if b ≤ 0x09#8 then unlessUnused 0x04#8 unusedZero (.rdreg b) else .error (.reservedRegister b)

/-- The decoder, in the order of R89: first the reserved field `z`, then the opcode. -/
def decode (w : CmdWord) : Except Illegal Instr :=
  let b := bField w
  let a := aField w
  let d := dField w
  if zField w ≠ 0#16 then .error (.nonzeroReserved (zField w))
  else if opField w = 0x01#8 then unlessUnused 0x01#8 (d == 0#160) (.validate a b)
  else if opField w = 0x02#8 then unlessUnused 0x02#8 (d == 0#160) (.config a b)
  else if opField w = 0x03#8 then unlessUnused 0x03#8 (b == 0#8 && a == 0#64 && d == 0#160) .release
  else if opField w = 0x04#8 then decodeRdreg b (a == 0#64 && d == 0#160)
  else if opField w = 0x05#8 then unlessUnused 0x05#8 (b == 0#8 && a == 0#64 && d == 0#160) .sreset
  else if opField w = 0x10#8 then unlessUnused 0x10#8 (b == 0#8 && d == 0#160) (.bufrd a)
  else if opField w = 0x11#8 then unlessUnused 0x11#8 (d == 0#160) (.bufwr a b)
  else if opField w = 0x20#8 then unlessUnused 0x20#8 (b == 0#8) (.hasheval a d)
  else if opField w = 0x21#8 then unlessUnused 0x21#8 (b == 0#8 && a == 0#64) (.insert d)
  else if opField w = 0x22#8 then unlessUnused 0x22#8 (b == 0#8 && a == 0#64) (.query d)
  else .error (.undefinedOp (opField w))

/-! ### The encoder (R83, R98) -/

/-- The word of a command. -/
def encode : Instr → CmdWord
  | .validate hc l2 => packFields 0x01#8 l2 hc 0#160
  | .config hc l2 => packFields 0x02#8 l2 hc 0#160
  | .release => packFields 0x03#8 0#8 0#64 0#160
  | .rdreg n => packFields 0x04#8 n 0#64 0#160
  | .sreset => packFields 0x05#8 0#8 0#64 0#160
  | .bufrd off => packFields 0x10#8 0#8 off 0#160
  | .bufwr off byte => packFields 0x11#8 byte off 0#160
  | .hasheval k dg => packFields 0x20#8 0#8 k dg
  | .insert dg => packFields 0x21#8 0#8 0#64 dg
  | .query dg => packFields 0x22#8 0#8 0#64 dg

/-! ### The opcode table as the spec prints it (opcode_table.json, R89) -/

/-- A row of opcode_table.json: a word `w` matches when `(w AND mask) = pattern`. -/
structure OpcodeRow where
  mnemonic : String
  pattern : CmdWord
  mask : CmdWord
deriving DecidableEq, Repr

/-- `(w AND mask) = pattern`. -/
def OpcodeRow.matches (r : OpcodeRow) (w : CmdWord) : Bool := w &&& r.mask == r.pattern

/-- The eleven rows, in the table's order; RDREG has two (R92). -/
def opcodeTable : List OpcodeRow :=
  [⟨"VALIDATE", 0x0100000000000000000000000000000000000000000000000000000000000000,
      0xFF00FFFF0000000000000000FFFFFFFFFFFFFFFFFFFFFFFFFFFFFFFFFFFFFFFF⟩,
   ⟨"CONFIG", 0x0200000000000000000000000000000000000000000000000000000000000000,
      0xFF00FFFF0000000000000000FFFFFFFFFFFFFFFFFFFFFFFFFFFFFFFFFFFFFFFF⟩,
   ⟨"RELEASE", 0x0300000000000000000000000000000000000000000000000000000000000000,
      0xFFFFFFFFFFFFFFFFFFFFFFFFFFFFFFFFFFFFFFFFFFFFFFFFFFFFFFFFFFFFFFFF⟩,
   ⟨"RDREG", 0x0400000000000000000000000000000000000000000000000000000000000000,
      0xFFF8FFFFFFFFFFFFFFFFFFFFFFFFFFFFFFFFFFFFFFFFFFFFFFFFFFFFFFFFFFFF⟩,
   ⟨"RDREG", 0x0408000000000000000000000000000000000000000000000000000000000000,
      0xFFFEFFFFFFFFFFFFFFFFFFFFFFFFFFFFFFFFFFFFFFFFFFFFFFFFFFFFFFFFFFFF⟩,
   ⟨"SRESET", 0x0500000000000000000000000000000000000000000000000000000000000000,
      0xFFFFFFFFFFFFFFFFFFFFFFFFFFFFFFFFFFFFFFFFFFFFFFFFFFFFFFFFFFFFFFFF⟩] ++
  [⟨"BUFRD", 0x1000000000000000000000000000000000000000000000000000000000000000,
      0xFFFFFFFF0000000000000000FFFFFFFFFFFFFFFFFFFFFFFFFFFFFFFFFFFFFFFF⟩,
   ⟨"BUFWR", 0x1100000000000000000000000000000000000000000000000000000000000000,
      0xFF00FFFF0000000000000000FFFFFFFFFFFFFFFFFFFFFFFFFFFFFFFFFFFFFFFF⟩,
   ⟨"HASHEVAL", 0x2000000000000000000000000000000000000000000000000000000000000000,
      0xFFFFFFFF00000000000000000000000000000000000000000000000000000000⟩,
   ⟨"INSERT", 0x2100000000000000000000000000000000000000000000000000000000000000,
      0xFFFFFFFFFFFFFFFFFFFFFFFF0000000000000000000000000000000000000000⟩,
   ⟨"QUERY", 0x2200000000000000000000000000000000000000000000000000000000000000,
      0xFFFFFFFFFFFFFFFFFFFFFFFF0000000000000000000000000000000000000000⟩]

/-! ### Words on a byte-wide transport (20_memory.md R59, 30_encoding.md R84) -/

/-- The first `n` bytes of a word, least significant byte first: byte `k` is bits `8k+7 : 8k`. -/
def bytesOf {m : Nat} (w : BitVec m) (n : Nat) : List Byte :=
  (List.range n).map fun k => w.extractLsb' (8 * k) 8

/-- The number whose bytes are given least significant first. -/
def natOfBytes : List Byte → Nat
  | [] => 0
  | b :: bs => b.toNat + 256 * natOfBytes bs

/-- The 32 transfer bytes of a command word. -/
def CmdWord.toBytes (w : CmdWord) : List Byte := bytesOf w 32

/-- The command word the first 32 bytes of a transfer carry, and the bytes after them; none when fewer arrive. -/
def CmdWord.ofBytes? (bs : List Byte) : Option (CmdWord × List Byte) :=
  if 32 ≤ bs.length then some (BitVec.ofNat 256 (natOfBytes (bs.take 32)), bs.drop 32) else none

/-- The ten transfer bytes of a response word. -/
def RspWord.toBytes (r : RspWord) : List Byte := bytesOf r 10

/-- The digest the digest service delivers as 20 bytes, byte 0 first: byte `i` is `d[8i+7 : 8i]` (R58). -/
def digestOfBytes (bs : List Byte) : Option Digest :=
  if bs.length = 20 then some (BitVec.ofNat 160 (natOfBytes bs)) else none

/-- Decode a transfer: the command its first 32 bytes carry, or why they are none, and the rest. -/
def decodeBytes (bs : List Byte) : Option (Except Illegal Instr × List Byte) :=
  match CmdWord.ofBytes? bs with
  | none => none
  | some (w, rest) => some (decode w, rest)

/-- The host's reading of a table word: `w` numbered as opcode_table.json numbers it, the bits above `nbits` zero,
laid out as the 32 transfer bytes and given to the decoder (log entry 10). -/
def decodeTableWord (nbits w : Nat) : Option Instr :=
  match decodeBytes (CmdWord.toBytes (BitVec.ofNat 256 (w % 2 ^ nbits))) with
  | some (.ok i, _) => some i
  | _ => none

end Sys2Proof
end

