-- ==== Sys2Proof/Config.lean ====
section
/-! DEFINITION. What an implementation of the BFE fixes (spec 00_scope.md R8) and the constants of every
implementation (R9). The parameters are an argument of the model: a record `Params` that State carries and no
step changes (log entry 1). -/

namespace Sys2Proof.Config

/-- The width of the platform size type, one of the two legal values (00_scope.md R8, 92_eei_decisions.md D6). -/
inductive SizeW where
  | w32
  | w64
deriving DecidableEq, Repr

/-- The parameters of one engine (00_scope.md R8): fixed for its life, changed by no command. -/
structure Params where
  /-- SIZE_W: the width in which buffer sizes, offsets and `hash_count` are held. -/
  sizeW : SizeW
  /-- MEM_BYTES: how many bytes of buffer memory are attached. -/
  memBytes : Nat
  /-- LANES: how many hash functions are evaluated at once; no rule of the engine reads it (43_engine.md R156). -/
  lanes : Nat
deriving DecidableEq, Repr

/-- The reference instance of R8: SIZE_W = 64, MEM_BYTES = 65536, LANES any (here 1).
DESIGN CHOICE (log entry 1, unsafe for a claim about `State.reset` alone). -/
def reference : Params := { sizeW := .w64, memBytes := 65536, lanes := 1 }

end Sys2Proof.Config
end

