-- ==== Sys2Proof/Machine/State.lean ====
section
/-! DEFINITION. The state of the BFE as plain data: the architectural state of 10_state.md R20, the engine's
parameters (00_scope.md R8, log entry 1) and the two channels to the host (30_encoding.md R80, log entry 2); what a
response word holds; why a step can stop; the state after reset (10_state.md R44). -/

namespace Sys2Proof.Machine

/-- The status codes the BFE produces (60_exceptions.md R170). The codes 0x04 to 0x06 are reserved and never
produced, so they have no constructor (93_implementation_defined.md U11). -/
inductive Status where
  | ok
  | eOom
  | eInval
  | e2Big
  | eIllegal
  | eState
  | eRange
  | eTable
  | eFaulted
deriving DecidableEq, Repr

/-- The fields of a response word (30_encoding.md R85). -/
structure Response where
  /-- status code, bits 79:72 -/
  status : Status
  /-- copy of the `op` field of the command this word answers, bits 71:64 -/
  rop : Byte
  /-- result, bits 63:0 -/
  data : U64
deriving DecidableEq, Repr

/-- The machine's own stops. The spec's errors are none: each is a response word and a next state. -/
inductive Fault where
  /-- An access to a byte that lies outside the active filter's buffer or outside the buffer memory. The spec says
  it never occurs (00_scope.md R14, 20_memory.md R65); raised by BUFRD, BUFWR, HASHEVAL, INSERT and QUERY only in
  states that break the invariant of 10_state.md R29, which no run reaches. Safe (log entry 6). -/
  | outsideBuffer (off : Nat)
deriving DecidableEq, Repr

/-- The machine's refusals. -/
inductive Refusal where
  /-- A command of the opcode table without a meaning yet, refused by name in exec's arm; no arm does so now. Safe. -/
  | notModelled (mnemonic : String)
deriving DecidableEq, Repr

/-- The state of the engine, its parameters and its channels. -/
structure State where
  /-- SIZE_W, MEM_BYTES and LANES: constant (00_scope.md R8, log entry 1). -/
  params : Config.Params
  /-- A filter exists (10_state.md R23). -/
  active : Bool
  /-- Sticky table fault (10_state.md R23). -/
  fault : Bool
  /-- `hash_count`, the number of hash functions; 0 while no filter is active (10_state.md R25). -/
  hashCount : U64
  /-- `log2_bits`; 0 while no filter is active (10_state.md R26). -/
  log2Bits : Byte
  /-- `fault_addr`, the buffer offset of the offending table byte; 0 while `fault` is 0 (10_state.md R27). -/
  faultAddr : U64
  /-- `mem`, the buffer memory (10_state.md R28), in canonical form: offsets strictly rising, no listed byte equal to
  what an unlisted one reads as (log entry 4). -/
  mem : List Host.Cell
  /-- The command channel: words the host has put on it and the engine has not taken, oldest first (log entry 2). -/
  cmds : List CmdWord
  /-- The response channel: words handed to the host, oldest first (log entry 2). -/
  rsps : List RspWord
deriving DecidableEq, Repr

/-- The state after hardware reset of the reference instance: EMPTY, every scalar 0 (10_state.md R44,
70_reset_and_hazards.md R200). No byte of memory is listed: its contents are unspecified (log entry 5). The channels
are empty: no command is in progress (log entries 2, 3). -/
def State.reset : State :=
  { params := Config.reference
    active := false
    fault := false
    hashCount := 0
    log2Bits := 0
    faultAddr := 0
    mem := []
    cmds := []
    rsps := [] }

end Sys2Proof.Machine
end

