-- ==== Sys2Proof/Machine/Ops.lean ====
section
/-! DEFINITION. The named operations every command uses: the limits of the platform (00_scope.md R9), the buffer
memory, the derived quantities (R15), the access to a byte of the buffer (R14), the response (30_encoding.md R85,
R86), refusing a command (60_exceptions.md R182), taking the table fault (R180) and leaving the FAULT state (R184). -/

namespace Sys2Proof.Machine

/-! ### Limits of the platform (00_scope.md R9) -/

/-- SIZE_W as a number. -/
def sizeWBits (p : Config.Params) : Nat :=
  match p.sizeW with
  | .w32 => 32
  | .w64 => 64

/-- DIGEST_W: every legal stored index is less than it. -/
def digestW : Nat := 160

/-- LOG2_MAX = min(SIZE_W, 160). -/
def log2Max (p : Config.Params) : Nat := min (sizeWBits p) digestW

/-- SIZE_MAX = 2^SIZE_W - 1. -/
def sizeMax (p : Config.Params) : Nat := 2 ^ sizeWBits p - 1

/-- HC_FIELD_MAX = 2^64 - 1. -/
def hcFieldMax : Nat := 2 ^ 64 - 1

/-! ### The buffer memory as a list of cells (log entry 4) -/

/-- What a byte of the active filter's buffer reads as when it is not listed: 0, the value CONFIG wrote to every
byte of the new buffer (41_lifecycle.md R126). -/
def Memory.unlisted : Byte := 0

/-- The byte a list of cells holds at an offset. -/
def Memory.read : List Host.Cell → Nat → Byte
  | [], _ => Memory.unlisted
  | c :: cs, a => if c.1 = a then c.2 else Memory.read cs a

/-- Put a cell in front, unless it says what an unlisted offset says. -/
def Memory.cons (a : Nat) (v : Byte) (cs : List Host.Cell) : List Host.Cell :=
  if v = Memory.unlisted then cs else (a, v) :: cs

/-- Write a byte, keeping the canonical form. -/
def Memory.write : List Host.Cell → Nat → Byte → List Host.Cell
  | [], a, v => Memory.cons a v []
  | c :: cs, a, v =>
    if a < c.1 then Memory.cons a v (c :: cs)
    else if a = c.1 then Memory.cons a v cs
    else c :: Memory.write cs a v

/-- Write 0 to every offset below `n` (CONFIG's loop, 41_lifecycle.md R121). -/
def Memory.zeroBelow (n : Nat) (cs : List Host.Cell) : List Host.Cell :=
  cs.filter fun c => decide (n ≤ c.1)

/-- The canonical form: offsets strictly rising, no listed byte equal to what an unlisted one reads as. -/
def Memory.wf : List Host.Cell → Bool
  | [] => true
  | c :: cs => c.2 != Memory.unlisted && cs.all (fun x => decide (c.1 < x.1)) && Memory.wf cs

/-! ### Derived quantities (00_scope.md R15) -/

/-- V for a given `log2_bits`: ceil(2^l2 / 8), the bytes of the bit vector. -/
def bvBytesOf (l2 : Nat) : Nat := if l2 < 3 then 1 else 2 ^ (l2 - 3)

/-- T = TABLE_BYTES, the bytes of the hash tables and the offset of the bit vector; 0 while no filter is active. -/
def State.tableBytes (s : State) : Nat :=
  if s.active then s.hashCount.toNat * s.log2Bits.toNat else 0

/-- V = BV_BYTES, the bytes of the bit vector; 0 while no filter is active. -/
def State.bvBytes (s : State) : Nat :=
  if s.active then bvBytesOf s.log2Bits.toNat else 0

/-- BUF_BYTES = T + V; 0 while no filter is active. -/
def State.bufBytes (s : State) : Nat := s.tableBytes + s.bvBytes

/-- BIT_COUNT = 2^log2_bits, the number of flags; 0 while no filter is active. -/
def State.bitCount (s : State) : Nat :=
  if s.active then 2 ^ s.log2Bits.toNat else 0

/-! ### Access to one byte of the buffer (00_scope.md R14, 20_memory.md R61, R65) -/

/-- The offset names a byte of the active filter's buffer, and the memory has that byte. -/
def State.inBuffer (s : State) (off : Nat) : Bool :=
  decide (off < s.bufBytes) && decide (off < s.params.memBytes)

/-- MemRead(off, 1). A byte outside the buffer has no value: its contents are unspecified (log entries 4, 5). -/
def State.memRead (s : State) (off : Nat) : Option Byte :=
  if s.inBuffer off then some (Memory.read s.mem off) else none

/-- MemWrite(off, 1, v). -/
def State.memWrite (s : State) (off : Nat) (v : Byte) : Option State :=
  if s.inBuffer off then some { s with mem := Memory.write s.mem off v } else none

/-! ### Responses (30_encoding.md R85, R86) -/

/-- The number of a status code (60_exceptions.md R170). -/
def Status.code : Status → Byte
  | .ok => 0x00
  | .eOom => 0x01
  | .eInval => 0x02
  | .e2Big => 0x03
  | .eIllegal => 0x10
  | .eState => 0x11
  | .eRange => 0x12
  | .eTable => 0x13
  | .eFaulted => 0x14

/-- The response word: status in bits 79:72, rop in 71:64, data in 63:0. -/
def Response.word (r : Response) : RspWord := r.status.code ++ r.rop ++ r.data

/-- Hand a response word to the host. -/
def State.push (s : State) (r : Response) : State := { s with rsps := s.rsps ++ [r.word] }

/-- What a command's meaning answers: every response of the spec is a next state. -/
abbrev Result := Host.Outcome State Fault Refusal

/-- `respond(data)`: the command ends OK (00_scope.md R14). -/
def respond (op : Byte) (data : U64) (s : State) : Result := .next (s.push ⟨.ok, op, data⟩)

/-- `raise E`: the command ends with a status other than OK, data 0, and changes nothing (R14, 60_exceptions.md
R182). -/
def raise (e : Status) (op : Byte) (s : State) : Result := .next (s.push ⟨e, op, 0⟩)

/-- An access the spec says never occurs stops the machine (log entry 6). -/
def stopOutside (off : Nat) : Result := .fault (.outsideBuffer off)

/-! ### Taking the table fault, and leaving the FAULT state -/

/-- What entry into FAULT writes (60_exceptions.md R180): the flag, and the offset of the offending table byte. -/
def State.faultedAt (s : State) (off : Nat) : State :=
  { s with fault := true, faultAddr := BitVec.ofNat 64 off }

/-- Taking the table fault (60_exceptions.md R180, R183): entry into FAULT, nothing else changes, and the response
carries E_TABLE with data 0. -/
def takeTableFault (op : Byte) (off : Nat) (s : State) : Result := raise .eTable op (s.faultedAt off)

/-- The reset of every piece of architectural state (10_state.md R44), the only way out of FAULT (60_exceptions.md
R184): the parameters are not state, and the channels are the host's. Every byte of `mem` becomes unspecified: the
model lists none (log entry 5). -/
def State.clear (s : State) : State :=
  { s with active := false, fault := false, hashCount := 0, log2Bits := 0, faultAddr := 0, mem := [] }

/-- Hardware reset of an engine with parameters `p` (70_reset_and_hazards.md R200, R201): a new run, with nothing on
the channels (log entry 8). -/
def State.hardReset (p : Config.Params) : State :=
  { params := p, active := false, fault := false, hashCount := 0, log2Bits := 0, faultAddr := 0, mem := [],
    cmds := [], rsps := [] }

/-! ### The checks of 60_exceptions.md R178, steps 3 and 4 -/

/-- Step 3: while `fault` is 1 the command is refused with E_FAULTED (R181). -/
def unlessFaulted (op : Byte) (s : State) (run : Result) : Result :=
  if s.fault then raise .eFaulted op s else run

/-- Steps 3 and 4 for a command that needs a filter (41_lifecycle.md R120, 60_exceptions.md R177). -/
def withFilter (op : Byte) (s : State) (run : Result) : Result :=
  unlessFaulted op s (if s.active then run else raise .eState op s)

/-- Steps 3 and 4 for CONFIG, which needs that no filter exists. -/
def withoutFilter (op : Byte) (s : State) (run : Result) : Result :=
  unlessFaulted op s (if s.active then raise .eState op s else run)

end Sys2Proof.Machine
end

