-- ==== Sys2Proof/Machine/Flags.lean ====
section
/-! DEFINITION. The two flags and the lifecycle they name (10_state.md R23, R24), and the register STATUS that shows
them (R33). The BFE has no condition codes (R23). -/

namespace Sys2Proof.Machine

/-- The three lifecycle states (10_state.md R24). -/
inductive Lifecycle where
  /-- EMPTY: no filter. -/
  | empty
  /-- ACTIVE: a filter exists. -/
  | active
  /-- FAULT: a stored index of 160 or more was read. -/
  | fault
deriving DecidableEq, Repr

/-- The lifecycle state the flags name; the combination `active = 0`, `fault = 1` never occurs (R24) and names
none. -/
def State.lifecycle (s : State) : Option Lifecycle :=
  match s.active, s.fault with
  | false, false => some .empty
  | true, false => some .active
  | true, true => some .fault
  | false, true => none

/-- STATUS: bit 0 is ACTIVE, bit 1 is FAULT, bits 63:2 are 0 (R33). -/
def statusReg (s : State) : U64 :=
  (0 : BitVec 62) ++ BitVec.ofBool s.fault ++ BitVec.ofBool s.active

end Sys2Proof.Machine
end

