-- ==== Sys2Proof/Machine/Operands.lean ====
section
/-! DEFINITION. What an operand names: a control register (10_state.md R30 to R39), a table byte and a flag of the
buffer (20_memory.md R51, R53, R54), a bit of the digest (R58). -/

namespace Sys2Proof.Machine

/-! ### Control registers -/

/-- The ten control registers (10_state.md R30). -/
inductive ControlReg where
  | cap
  | memsz
  | status
  | hashCount
  | log2Bits
  | bitCountLo
  | bitCountHi
  | bufBytes
  | tableBytes
  | faultAddr
deriving DecidableEq, Repr

/-- The number of a control register (10_state.md R30). -/
def ControlReg.number : ControlReg → Byte
  | .cap => 0x00
  | .memsz => 0x01
  | .status => 0x02
  | .hashCount => 0x03
  | .log2Bits => 0x04
  | .bitCountLo => 0x05
  | .bitCountHi => 0x06
  | .bufBytes => 0x07
  | .tableBytes => 0x08
  | .faultAddr => 0x09

/-- The register a number names; the numbers 0x0A to 0xFF are reserved (10_state.md R30). -/
def controlReg? (n : Byte) : Option ControlReg :=
  match n.toNat with
  | 0 => some .cap
  | 1 => some .memsz
  | 2 => some .status
  | 3 => some .hashCount
  | 4 => some .log2Bits
  | 5 => some .bitCountLo
  | 6 => some .bitCountHi
  | 7 => some .bufBytes
  | 8 => some .tableBytes
  | 9 => some .faultAddr
  | _ => none

/-- VERSION of BFE-1 (10_state.md R31). -/
def version : Nat := 1

/-- CAP: DIGEST_W in 15:0, SIZE_W in 23:16, LOG2_MAX in 31:24, VERSION in 39:32, the rest 0 (10_state.md R31). -/
def capReg (p : Config.Params) : U64 :=
  (0 : BitVec 24) ++ BitVec.ofNat 8 version ++ BitVec.ofNat 8 (log2Max p) ++ BitVec.ofNat 8 (sizeWBits p) ++
    BitVec.ofNat 16 digestW

/-- `CR[n]`, the value of a control register (10_state.md R31 to R39). The registers hold nothing of their own: each
is computed from the state. In a state that keeps the invariant of R29 every value fits its 64 bits (log entry 7). -/
def readReg (r : ControlReg) (s : State) : U64 :=
  match r with
  | .cap => capReg s.params
  | .memsz => BitVec.ofNat 64 s.params.memBytes
  | .status => statusReg s
  | .hashCount => s.hashCount
  | .log2Bits => s.log2Bits.setWidth 64
  | .bitCountLo => BitVec.ofNat 64 s.bitCount
  | .bitCountHi => BitVec.ofNat 64 (s.bitCount / 2 ^ 64)
  | .bufBytes => BitVec.ofNat 64 s.bufBytes
  | .tableBytes => BitVec.ofNat 64 s.tableBytes
  | .faultAddr => s.faultAddr

/-! ### Places in the buffer -/

/-- The offset of the stored index hash function `k` uses for output position `i`: `k * L + i` (20_memory.md R51). -/
def tableOffset (s : State) (k i : Nat) : Nat := k * s.log2Bits.toNat + i

/-- The offset of the byte that holds flag `n`: `T + n div 8` (20_memory.md R53). -/
def flagOffset (s : State) (n : Nat) : Nat := s.tableBytes + n / 8

/-- The bit of its byte that flag `n` is: `2^(n mod 8)` (20_memory.md R54). -/
def flagMask (n : Nat) : Byte := BitVec.ofNat 8 (2 ^ (n % 8))

/-- Flag `n` in the byte that holds it: `(byte div 2^(n mod 8)) mod 2 = 1` (20_memory.md R54). -/
def flagIn (byte : Byte) (n : Nat) : Bool := byte.getLsbD (n % 8)

/-- Digest bit `j` as the number 0 or 1 (20_memory.md R58). -/
def digestBit (d : Digest) (j : Nat) : Nat := (d.getLsbD j).toNat

end Sys2Proof.Machine
end

