-- ==== Sys2Proof/Machine/Buffer.lean ====
section
/-! DEFINITION. The buffer access commands BUFRD and BUFWR (42_buffer.md): one byte, absolute buffer offset, bounded
by the active filter's size. -/

namespace Sys2Proof.Machine

/-- The range check of BUFRD and BUFWR (60_exceptions.md R179). -/
def unlessOutOfRange (op : Byte) (off : U64) (s : State) (run : Result) : Result :=
  if s.bufBytes ≤ off.toNat then raise .eRange op s else run

/-- BUFRD off (42_buffer.md R141). -/
def execBufrd (off : U64) (s : State) : Result :=
  let op := (Instr.bufrd off).opcode
  withFilter op s
    (unlessOutOfRange op off s
      (match s.memRead off.toNat with
       | some b => respond op (b.setWidth 64) s
       | none => stopOutside off.toNat))

/-- BUFWR off, byte (42_buffer.md R142): the value is not checked. -/
def execBufwr (off : U64) (byte : Byte) (s : State) : Result :=
  let op := (Instr.bufwr off byte).opcode
  withFilter op s
    (unlessOutOfRange op off s
      (match s.memWrite off.toNat byte with
       | some s' => respond op 0 s'
       | none => stopOutside off.toNat))

end Sys2Proof.Machine
end

