-- ==== Sys2Proof/Machine/Engine.lean ====
section
/-! DEFINITION. The Bit Vector Engine (43_engine.md): evaluating one hash function (R151) and the commands HASHEVAL,
INSERT and QUERY, as the sequential pseudocode states them. A loop over `i in 0 .. n-1` is a function of `n`: the
result after the first `n` rounds. -/

namespace Sys2Proof.Machine

/-- How a part of an evaluation ends: with a value, with a table fault at a buffer offset (43_engine.md R151), or at
a byte the memory does not have (log entry 6). -/
inductive Sweep (α : Type) where
  | value (a : α)
  | tableFault (off : Nat)
  | outside (off : Nat)
deriving DecidableEq, Repr

/-- Go on with the value; a table fault or a missing byte ends the evaluation there. -/
def Sweep.bind {α β : Type} (r : Sweep α) (f : α → Sweep β) : Sweep β :=
  match r with
  | .value a => f a
  | .tableFault off => .tableFault off
  | .outside off => .outside off

/-- End a command with what an evaluation gave: go on with the value, or take the table fault (60_exceptions.md
R180). -/
def Sweep.finish {α : Type} (r : Sweep α) (op : Byte) (s : State) (run : α → Result) : Result :=
  match r with
  | .value a => run a
  | .tableFault off => takeTableFault op off s
  | .outside off => stopOutside off

/-! ### Evaluating one hash function (43_engine.md R151) -/

/-- Read the stored index hash function `k` uses for position `i`; an index of 160 or more is a table fault. -/
def readIndex (s : State) (k i : Nat) : Sweep Nat :=
  match s.memRead (tableOffset s k i) with
  | none => .outside (tableOffset s k i)
  | some idx => if digestW ≤ idx.toNat then .tableFault (tableOffset s k i) else .value idx.toNat

/-- Eval's loop after its first `n` rounds: digest bit `idx` has gone to output bit `i`, for each `i < n`. -/
def evalUpTo (s : State) (k : Nat) (d : Digest) : Nat → Sweep Nat
  | 0 => .value 0
  | n + 1 =>
    (evalUpTo s k d n).bind fun p =>
      (readIndex s k n).bind fun idx => .value (p + digestBit d idx * 2 ^ n)

/-- Eval(k, d): all L positions (43_engine.md R151). -/
def eval (s : State) (k : Nat) (d : Digest) : Sweep Nat := evalUpTo s k d s.log2Bits.toNat

/-- HASHEVAL k, dg (43_engine.md R150). -/
def execHasheval (k : U64) (dg : Digest) (s : State) : Result :=
  let op := (Instr.hasheval k dg).opcode
  withFilter op s
    (if s.hashCount.toNat ≤ k.toNat then raise .eRange op s
     else (eval s k.toNat dg).finish op s fun p => respond op (BitVec.ofNat 64 p) s)

/-! ### INSERT (43_engine.md R153) -/

/-- Phase 1 after its first `n` functions: the hash values of functions `0 .. n-1`, in order; nothing is set. -/
def positionsUpTo (s : State) (d : Digest) : Nat → Sweep (List Nat)
  | 0 => .value []
  | n + 1 =>
    (positionsUpTo s d n).bind fun ps =>
      (eval s n d).bind fun p => .value (ps ++ [p])

/-- Set flag `p`: a read-modify-write of the byte that holds it (20_memory.md R63). -/
def setFlag (s : State) (p : Nat) : Sweep State :=
  match s.memRead (flagOffset s p) with
  | none => .outside (flagOffset s p)
  | some b =>
    match s.memWrite (flagOffset s p) (b ||| flagMask p) with
    | none => .outside (flagOffset s p)
    | some s' => .value s'

/-- Phase 2: set the flags at the given positions, in order. -/
def setFlags : List Nat → State → Sweep State
  | [], s => .value s
  | p :: ps, s => (setFlag s p).bind (setFlags ps)

/-- INSERT dg (43_engine.md R153): every function is evaluated before any flag is set. -/
def execInsert (dg : Digest) (s : State) : Result :=
  let op := (Instr.insert dg).opcode
  withFilter op s
    ((positionsUpTo s dg s.hashCount.toNat).finish op s fun ps =>
      (setFlags ps s).finish op s fun s' => respond op 0 s')

/-! ### QUERY (43_engine.md R154) -/

/-- Read flag `p`. -/
def readFlag (s : State) (p : Nat) : Sweep Bool :=
  match s.memRead (flagOffset s p) with
  | none => .outside (flagOffset s p)
  | some b => .value (flagIn b p)

/-- The flag hash function `k` selects for digest `d`. -/
def selectedFlag (s : State) (k : Nat) (d : Digest) : Sweep Bool :=
  (eval s k d).bind fun p => readFlag s p

/-- QUERY's loop after at most `n` functions: stopped with `false` at the first unset flag, `true` while none was
met. A function after the first unset flag is not evaluated. -/
def queryUpTo (s : State) (d : Digest) : Nat → Sweep Bool
  | 0 => .value true
  | n + 1 =>
    (queryUpTo s d n).bind fun present =>
      if present then selectedFlag s n d else .value false

/-- QUERY dg (43_engine.md R154): 1 for "present with high probability", 0 for "definitely absent". -/
def execQuery (dg : Digest) (s : State) : Result :=
  let op := (Instr.query dg).opcode
  withFilter op s
    ((queryUpTo s dg s.hashCount.toNat).finish op s fun present =>
      respond op (BitVec.setWidth 64 (BitVec.ofBool present)) s)

end Sys2Proof.Machine
end

