-- ==== Sys2Proof/Machine/Validate.lean ====
section
/-! DEFINITION. The parameter validator (40_validate.md): the function Cap (R111) and the command VALIDATE (R110). -/

namespace Sys2Proof.Machine

/-- What Cap returns (40_validate.md R111). -/
inductive CapResult where
  | ok (size : Nat)
  | invalidParameter
  | parametersTooLarge
deriving DecidableEq, Repr

/-- Cap(hc, l2) in exact integers, its steps in the order of 40_validate.md R111. -/
def cap (p : Config.Params) (hc l2 : Nat) : CapResult :=
  if hc = 0 then .invalidParameter
  else if log2Max p < l2 then .parametersTooLarge
  else if hcFieldMax < hc ∨ sizeMax p < hc then .parametersTooLarge
  else if sizeMax p < hc * l2 then .parametersTooLarge
  else if sizeMax p < hc * l2 + bvBytesOf l2 then .parametersTooLarge
  else .ok (hc * l2 + bvBytesOf l2)

/-- VALIDATE hc, l2 (40_validate.md R110): legal in EMPTY and in ACTIVE, changes nothing, never E_OOM. -/
def execValidate (hc : U64) (l2 : Byte) (s : State) : Result :=
  let op := (Instr.validate hc l2).opcode
  unlessFaulted op s
    (match cap s.params hc.toNat l2.toNat with
     | .invalidParameter => raise .eInval op s
     | .parametersTooLarge => raise .e2Big op s
     | .ok size => respond op (BitVec.ofNat 64 size) s)

end Sys2Proof.Machine
end

