-- ==== Sys2Proof/Machine/Lifecycle.lean ====
section
/-! DEFINITION. The lifecycle and system commands CONFIG, RELEASE, RDREG and SRESET (41_lifecycle.md). -/

namespace Sys2Proof.Machine

/-- The state a CONFIG that ends OK leaves (41_lifecycle.md R121): the parameters recorded, the buffer zeroed. -/
def State.configured (s : State) (hc : U64) (l2 : Byte) (size : Nat) : State :=
  { s with active := true, hashCount := hc, log2Bits := l2, mem := Memory.zeroBelow size s.mem }

/-- CONFIG hc, l2 (41_lifecycle.md R121, R125, R126): the validator, then the memory check, then the new filter. -/
def execConfig (hc : U64) (l2 : Byte) (s : State) : Result :=
  let op := (Instr.config hc l2).opcode
  withoutFilter op s
    (match cap s.params hc.toNat l2.toNat with
     | .invalidParameter => raise .eInval op s
     | .parametersTooLarge => raise .e2Big op s
     | .ok size =>
       if s.params.memBytes < size then raise .eOom op s
       else respond op (BitVec.ofNat 64 size) (s.configured hc l2 size))

/-- The state a RELEASE that ends OK leaves (41_lifecycle.md R122). Every byte of `mem` becomes unspecified: the
model lists none (log entry 5). -/
def State.released (s : State) : State :=
  { s with active := false, hashCount := 0, log2Bits := 0, mem := [] }

/-- RELEASE (41_lifecycle.md R122). -/
def execRelease (s : State) : Result :=
  withFilter Instr.release.opcode s (respond Instr.release.opcode 0 s.released)

/-- RDREG n (41_lifecycle.md R123): legal in every lifecycle state, changes nothing. A reserved number is illegal
(30_encoding.md R92); the decoder never lets one through (log entry 11). -/
def execRdreg (n : Byte) (s : State) : Result :=
  match controlReg? n with
  | some r => respond (Instr.rdreg n).opcode (readReg r s) s
  | none => raise .eIllegal (Instr.rdreg n).opcode s

/-- SRESET (41_lifecycle.md R124): legal in every lifecycle state. -/
def execSreset (s : State) : Result :=
  respond Instr.sreset.opcode 0 s.clear

end Sys2Proof.Machine
end

