-- ==== Sys2Proof/Machine/Dispatch.lean ====
section
/-! DEFINITION. One arm per command: each a direct call of the command's meaning. -/

namespace Sys2Proof.Machine

def exec (i : Instr) (s : State) : Host.Outcome State Fault Refusal :=
  match i with
  | .validate hc l2 => Sys2Proof.Machine.execValidate hc l2 s
  | .config hc l2 => Sys2Proof.Machine.execConfig hc l2 s
  | .release => Sys2Proof.Machine.execRelease s
  | .rdreg n => Sys2Proof.Machine.execRdreg n s
  | .sreset => Sys2Proof.Machine.execSreset s
  | .bufrd off => Sys2Proof.Machine.execBufrd off s
  | .bufwr off byte => Sys2Proof.Machine.execBufwr off byte s
  | .hasheval k dg => Sys2Proof.Machine.execHasheval k dg s
  | .insert dg => Sys2Proof.Machine.execInsert dg s
  | .query dg => Sys2Proof.Machine.execQuery dg s

end Sys2Proof.Machine
end

