-- ==== Sys2Proof/Machine/Fetch.lean ====
section
/-! DEFINITION. Taking a command word from the command channel (30_encoding.md R81; there is no program counter and no
fetch, 10_state.md R22), and answering a word that is illegal (R90 to R92, 60_exceptions.md R175). -/

namespace Sys2Proof.Machine

/-- The oldest word on the command channel, and the state without it; none when the host has offered no word. -/
def State.takeCommand (s : State) : Option (CmdWord × State) :=
  match s.cmds with
  | [] => none
  | w :: rest => some (w, { s with cmds := rest })

/-- An illegal word is answered E_ILLEGAL with `rop` the word's `op` field, in every lifecycle state, and changes
nothing (60_exceptions.md R175). -/
def answerIllegal (w : CmdWord) (s : State) : Result := raise .eIllegal (opField w) s

end Sys2Proof.Machine
end

