-- ==== Sys2Proof/Machine/Step.lean ====
section
/-! DEFINITION. One step of the engine: the step function of 60_exceptions.md R178 on the oldest word of the command
channel, and the host's way to put a word there. -/

namespace Sys2Proof.Machine

/-- Take the oldest command word, decode it, and execute it or answer it E_ILLEGAL. With no word on the channel the
engine is idle and the state survives (60_exceptions.md R191, log entry 3). -/
def step (s : State) : Host.Outcome State Fault Refusal :=
  match s.takeCommand with
  | none => .next s
  | some (w, s') =>
    match decode w with
    | .error _ => answerIllegal w s'
    | .ok i => exec i s'

/-- The state with the command word `w`, its bits above `nbits` zero, as the oldest word of the command channel. -/
def State.withFetchWord (s : State) (nbits w : Nat) : State :=
  { s with cmds := BitVec.ofNat 256 (w % 2 ^ nbits) :: s.cmds }

end Sys2Proof.Machine
end

