-- ==== Sys2Proof/Machine/Assembler.lean ====
section
/-! DEFINITION. The assembler notation of 30_encoding.md R98 and its pseudo-instructions (R99), as syntax trees: what
each line of a command list stands for. Machine/AsmText.lean reads the characters. -/

namespace Sys2Proof.Machine

/-- `expr` of R98. The tree says how the operators group. -/
inductive AsmExpr where
  | num (n : Nat)
  | name (x : String)
  | add (a b : AsmExpr)
  | sub (a b : AsmExpr)
  | mul (a b : AsmExpr)
deriving DecidableEq, Repr

/-- A digest operand: a literal of 40 hexadecimal digits, which is 20 bytes with byte 0 first, or an integer. -/
inductive AsmDigest where
  | literal (bytes : List Byte)
  | value (e : AsmExpr)
deriving DecidableEq, Repr

/-- A register operand: a name or a number. -/
inductive AsmReg where
  | named (r : ControlReg)
  | number (e : AsmExpr)
deriving DecidableEq, Repr

/-- A line of a command list: a directive, one of the ten commands, a pseudo-instruction, or nothing. -/
inductive AsmLine where
  | blank
  | equ (x : String) (e : AsmExpr)
  | validate (hc l2 : AsmExpr)
  | config (hc l2 : AsmExpr)
  | release
  | rdreg (r : AsmReg)
  | sreset
  | bufrd (off : AsmExpr)
  | bufwr (off byte : AsmExpr)
  | hasheval (k : AsmExpr) (dg : AsmDigest)
  | insert (dg : AsmDigest)
  | query (dg : AsmDigest)
  | info
  | tblwr (k i idx : AsmExpr)
  | run (k : AsmExpr) (idxs : List AsmExpr)
deriving DecidableEq, Repr

/-- The names `.equ` has defined, the latest first, each with its value on the line that defined it. -/
abbrev AsmEnv := List (String × Int)

/-- The value of an expression in exact integers (00_scope.md R12); none when a name is not defined. -/
def AsmExpr.value (env : AsmEnv) : AsmExpr → Option Int
  | .num n => some n
  | .name x => env.lookup x
  | .add a b => do return (← a.value env) + (← b.value env)
  | .sub a b => do return (← a.value env) - (← b.value env)
  | .mul a b => do return (← a.value env) * (← b.value env)

/-- "An operand must fit its field; the assembler rejects one that does not" (R98). -/
def fitField (w : Nat) (x : Int) : Option (BitVec w) :=
  if 0 ≤ x ∧ x < 2 ^ w then some (BitVec.ofInt w x) else none

/-- An expression operand in its field. -/
def asmOperand (env : AsmEnv) (w : Nat) (e : AsmExpr) : Option (BitVec w) :=
  (e.value env).bind (fitField w)

/-- A digest operand: `d = sum over i of byte_i * 2^(8*i)` for a literal, the value itself for an integer (R98). -/
def asmDigest (env : AsmEnv) : AsmDigest → Option Digest
  | .literal bytes => digestOfBytes bytes
  | .value e => asmOperand env 160 e

/-- A register operand (R98): a name maps to its number. -/
def asmReg (env : AsmEnv) : AsmReg → Option Byte
  | .named r => some r.number
  | .number e => asmOperand env 8 e

/-- BUFWR with expression operands. -/
def asmBufwr (env : AsmEnv) (off byte : AsmExpr) : Option Instr := do
  return .bufwr (← asmOperand env 64 off) (← asmOperand env 8 byte)

/-- `(k)*L+(i)`, the offset TBLWR and RUN write (R99); `L` is a name the program has defined. -/
def asmTableOffset (k i : AsmExpr) : AsmExpr := .add (.mul k (.name "L")) i

/-- RUN's commands for positions `i, i+1, ...` of function `k` (R99). With no index left there is no command, and `k` is
not evaluated: R99 does not say whether a RUN of an empty list checks `k`, and the model does not (DESIGN CHOICE, log
entry 12). -/
def asmRunFrom (env : AsmEnv) (k : AsmExpr) : Nat → List AsmExpr → Option (List Instr)
  | _, [] => some []
  | i, idx :: rest => do
    return (← asmBufwr env (asmTableOffset k (.num i)) idx) :: (← asmRunFrom env k (i + 1) rest)

/-- The commands a line stands for; none when the assembler rejects it. A RUN of an empty list with `L` = 0 stands for no
command, whatever its `k` (DESIGN CHOICE, log entry 12). -/
def asmCommands (env : AsmEnv) : AsmLine → Option (List Instr)
  | .blank => some []
  | .equ _ _ => some []
  | .validate hc l2 => do return [.validate (← asmOperand env 64 hc) (← asmOperand env 8 l2)]
  | .config hc l2 => do return [.config (← asmOperand env 64 hc) (← asmOperand env 8 l2)]
  | .release => some [.release]
  | .rdreg r => do return [.rdreg (← asmReg env r)]
  | .sreset => some [.sreset]
  | .bufrd off => do return [.bufrd (← asmOperand env 64 off)]
  | .bufwr off byte => do return [← asmBufwr env off byte]
  | .hasheval k dg => do return [.hasheval (← asmOperand env 64 k) (← asmDigest env dg)]
  | .insert dg => do return [.insert (← asmDigest env dg)]
  | .query dg => do return [.query (← asmDigest env dg)]
  | .info =>
    some [.rdreg ControlReg.hashCount.number, .rdreg ControlReg.log2Bits.number, .rdreg ControlReg.bitCountLo.number,
      .rdreg ControlReg.bitCountHi.number, .rdreg ControlReg.bufBytes.number]
  | .tblwr k i idx => do return [← asmBufwr env (asmTableOffset k i) idx]
  | .run k idxs =>
    if (AsmExpr.name "L").value env = some (idxs.length : Int) then asmRunFrom env k 0 idxs else none

/-- The names defined after a line; none when an `.equ` cannot be evaluated. R98 does not say whether a second `.equ` may
name the same name again; the model takes it, and the latest definition holds from the next line on (DESIGN CHOICE, log
entry 12). -/
def asmDefine (env : AsmEnv) : AsmLine → Option AsmEnv
  | .equ x e => do return (x, ← e.value env) :: env
  | _ => some env

/-- The commands of a list of lines, in order. -/
def assemble (env : AsmEnv) : List AsmLine → Option (List Instr)
  | [] => some []
  | line :: rest => do
    let cmds ← asmCommands env line
    let env' ← asmDefine env line
    return cmds ++ (← assemble env' rest)

end Sys2Proof.Machine
end

