-- ==== Sys2Proof/Machine/AsmText.lean ====
section
/-! DEFINITION. Reading the textual form of a command list (30_encoding.md R98): the characters of a line to its tokens,
its tokens to a line of Machine/Assembler.lean, and a whole text to its commands. What R98 leaves open is fixed in log
entry 12: how operators group, what a name is made of, where a comment may stand. -/

namespace Sys2Proof.Machine

/-- The tokens of a line (30_encoding.md R98). -/
inductive AsmToken where
  | word (x : String)
  | int (n : Nat)
  | digest (bytes : List Byte)
  | comma
  | plus
  | minus
  | star
  | lparen
  | rparen
deriving DecidableEq, Repr

/-! ### Characters to tokens -/

/-- The digits of R98's integers and digest literals, in the order of their values. -/
def asmDigitChars : List Char :=
  ['0', '1', '2', '3', '4', '5', '6', '7', '8', '9', 'A', 'B', 'C', 'D', 'E', 'F']

/-- The value of a digit: its place among the digits. Either case is read (DESIGN CHOICE, log entry 12). -/
def asmDigit (c : Char) : Option Nat := asmDigitChars.idxOf? c.toUpper

/-- The digits of an integer in a base; an underscore may stand between two digits. `after` says that a digit stands
before. -/
def asmDigits (base : Nat) (after : Bool) (acc : Nat) : List Char → Option Nat
  | [] => if after then some acc else none
  | '_' :: cs => if after then asmDigits base false acc cs else none
  | c :: cs =>
    match asmDigit c with
    | some v => if v < base then asmDigits base true (acc * base + v) cs else none
    | none => none

/-- The bytes of a digest literal, two hexadecimal digits each, byte 0 first. -/
def asmHexBytes : List Char → Option (List Byte)
  | [] => some []
  | [_] => none
  | h :: l :: cs => do return BitVec.ofNat 8 (16 * (← asmDigit h) + (← asmDigit l)) :: (← asmHexBytes cs)

/-- A character of a name. -/
def asmNameChar (c : Char) : Bool := c.isAlphanum || c == '_'

/-- The token a run of characters without separators is. R98 does not say what a name is made of; the model takes
letters, digits and underscores, beginning with a letter, an underscore or a dot (DESIGN CHOICE, log entry 12): `.equ`
is read here too, and a word such as `.x` is a name like any other. -/
def asmClassify : List Char → Option AsmToken
  | [] => none
  | '#' :: cs => if cs.length = 40 then (asmHexBytes cs).map .digest else none
  | '0' :: 'x' :: cs => (asmDigits 16 false 0 cs).map .int
  | c :: cs =>
    if c.isDigit then (asmDigits 10 false 0 (c :: cs)).map .int
    else if (c == '.' || asmNameChar c) && cs.all asmNameChar then some (.word (String.ofList (c :: cs)))
    else none

/-- The token a separator is. -/
def asmSeparator (c : Char) : Option AsmToken :=
  if c = ',' then some .comma
  else if c = '+' then some .plus
  else if c = '-' then some .minus
  else if c = '*' then some .star
  else if c = '(' then some .lparen
  else if c = ')' then some .rparen
  else none

/-- The run read so far, last character first, as a token in front of `rest`. -/
def asmFlush (run : List Char) (rest : List AsmToken) : Option (List AsmToken) :=
  match run with
  | [] => some rest
  | c :: cs => (asmClassify (c :: cs).reverse).map (· :: rest)

/-- The tokens of a line; `run` holds the characters of the current run, last first. A comment runs to the end of
whichever line it stands on: R98's grammar lists one after a mnemonic's operands and none after `.equ`, and the model
drops it there too (DESIGN CHOICE, log entry 12). -/
def asmTokens (run : List Char) : List Char → Option (List AsmToken)
  | [] => asmFlush run []
  | c :: cs =>
    if c = ';' then asmFlush run []
    else if c = ' ' ∨ c = '\t' then (asmTokens [] cs).bind (asmFlush run)
    else
      match asmSeparator c with
      | some t => (asmTokens [] cs).bind fun rest => asmFlush run (t :: rest)
      | none => asmTokens (c :: run) cs

/-! ### Tokens to expressions -/

/-- An operator waiting for its right operand, or an open parenthesis. -/
inductive AsmOp where
  | add
  | sub
  | mul
  | paren
deriving DecidableEq, Repr

/-- How tightly an operator groups (DESIGN CHOICE, log entry 12: R98's grammar leaves it open). -/
def AsmOp.level : AsmOp → Nat
  | .add => 1
  | .sub => 1
  | .mul => 2
  | .paren => 0

/-- Apply a waiting operator to the last two operands. -/
def AsmOp.apply (op : AsmOp) (out : List AsmExpr) : Option (List AsmExpr) :=
  match op, out with
  | .add, b :: a :: rest => some (.add a b :: rest)
  | .sub, b :: a :: rest => some (.sub a b :: rest)
  | .mul, b :: a :: rest => some (.mul a b :: rest)
  | _, _ => none

/-- Apply the waiting operators that group at least as tightly as `level`. -/
def asmReduce (level : Nat) (out : List AsmExpr) : List AsmOp → Option (List AsmExpr × List AsmOp)
  | [] => some (out, [])
  | op :: ops =>
    if level ≤ op.level then (op.apply out).bind fun out' => asmReduce level out' ops else some (out, op :: ops)

/-- An expression from its tokens; `operand` says that an operand comes next, `out` and `ops` hold what is read and not
yet grouped. -/
def asmExpr (operand : Bool) (out : List AsmExpr) (ops : List AsmOp) : List AsmToken → Option AsmExpr
  | [] =>
    match operand, asmReduce 1 out ops with
    | false, some ([e], []) => some e
    | _, _ => none
  | t :: ts =>
    let binary := fun (op : AsmOp) =>
      if operand then none
      else (asmReduce op.level out ops).bind fun r => asmExpr true r.1 (op :: r.2) ts
    match t with
    | .int n => if operand then asmExpr false (.num n :: out) ops ts else none
    | .word x => if operand then asmExpr false (.name x :: out) ops ts else none
    | .lparen => if operand then asmExpr true out (.paren :: ops) ts else none
    | .rparen =>
      if operand then none
      else
        (asmReduce 1 out ops).bind fun r =>
          match r.2 with
          | .paren :: ops' => asmExpr false r.1 ops' ts
          | _ => none
    | .plus => binary .add
    | .minus => binary .sub
    | .star => binary .mul
    | .digest _ => none
    | .comma => none

/-- An expression operand. -/
def asmExprOf (ts : List AsmToken) : Option AsmExpr := asmExpr true [] [] ts

/-- Expression operands, in order. -/
def asmExprsOf : List (List AsmToken) → Option (List AsmExpr)
  | [] => some []
  | ts :: rest => do return (← asmExprOf ts) :: (← asmExprsOf rest)

/-- A digest operand: a literal, or an expression. -/
def asmDigestOf (ts : List AsmToken) : Option AsmDigest :=
  match ts with
  | [.digest bytes] => some (.literal bytes)
  | _ => (asmExprOf ts).map .value

/-- The register a name stands for (30_encoding.md R98; 10_state.md R30). -/
def asmRegName (x : String) : Option ControlReg :=
  [("CAP", ControlReg.cap), ("MEMSZ", .memsz), ("STATUS", .status), ("HASH_COUNT", .hashCount),
    ("LOG2_BITS", .log2Bits), ("BIT_COUNT_LO", .bitCountLo), ("BIT_COUNT_HI", .bitCountHi),
    ("BUF_BYTES", .bufBytes), ("TABLE_BYTES", .tableBytes), ("FAULT_ADDR", .faultAddr)].lookup x

/-- A register operand: a register name, or an expression. A register name is the register even where `.equ` defines the
same name (DESIGN CHOICE, log entry 12). -/
def asmRegOf (ts : List AsmToken) : Option AsmReg :=
  match ts with
  | [.word x] =>
    match asmRegName x with
    | some r => some (.named r)
    | none => some (.number (.name x))
  | _ => (asmExprOf ts).map .number

/-! ### Lines and texts -/

/-- The operands between the commas; none at all when no token stands after the mnemonic. -/
def asmOperands (ts : List AsmToken) : List (List AsmToken) :=
  match ts with
  | [] => []
  | t :: rest => (t :: rest).splitOn .comma

/-- The line a mnemonic and its operands are; none when the assembler rejects it. -/
def asmLine (mnemonic : String) (operands : List (List AsmToken)) : Option AsmLine :=
  match mnemonic, operands with
  | "VALIDATE", [hc, l2] => do return .validate (← asmExprOf hc) (← asmExprOf l2)
  | "CONFIG", [hc, l2] => do return .config (← asmExprOf hc) (← asmExprOf l2)
  | "RELEASE", [] => some .release
  | "RDREG", [r] => (asmRegOf r).map .rdreg
  | "SRESET", [] => some .sreset
  | "BUFRD", [off] => (asmExprOf off).map .bufrd
  | "BUFWR", [off, byte] => do return .bufwr (← asmExprOf off) (← asmExprOf byte)
  | "HASHEVAL", [k, dg] => do return .hasheval (← asmExprOf k) (← asmDigestOf dg)
  | "INSERT", [dg] => (asmDigestOf dg).map .insert
  | "QUERY", [dg] => (asmDigestOf dg).map .query
  | "INFO", [] => some .info
  | "TBLWR", [k, i, idx] => do return .tblwr (← asmExprOf k) (← asmExprOf i) (← asmExprOf idx)
  | "RUN", k :: idxs => do return .run (← asmExprOf k) (← asmExprsOf idxs)
  | ".equ", [[.word x], e] => (asmExprOf e).map (.equ x)
  | _, _ => none

/-- A line of text. -/
def asmReadLine (line : List Char) : Option AsmLine :=
  match asmTokens [] line with
  | some [] => some .blank
  | some (.word mnemonic :: ts) => asmLine mnemonic (asmOperands ts)
  | _ => none

/-- Lines of text, in order. -/
def asmReadLines : List (List Char) → Option (List AsmLine)
  | [] => some []
  | line :: rest => do return (← asmReadLine line) :: (← asmReadLines rest)

/-- The commands a text stands for, in order: one line after the other, with no name defined before the first. -/
def assembleText (text : List Char) : Option (List Instr) :=
  (asmReadLines (text.splitOn '\n')).bind (assemble [])

end Sys2Proof.Machine
end

