-- ==== Sys2Proof/Machine/Lanes.lean ====
section
/-! DEFINITION. The parallel lookup of 43_engine.md R156: LANES hash functions evaluated at once, and the positions of
one function at once. No rule of the engine reads LANES: these meanings must equal the sequential ones of
Machine/Engine.lean, which are the machine's (log entry 9). -/

namespace Sys2Proof.Machine

/-- The results that lanes found independently, put together in ascending order: the first fault in that order is the
one reported (43_engine.md R152). -/
def mergeLanes : List (Sweep Nat) → Sweep (List Nat)
  | [] => .value []
  | r :: rs => r.bind fun p => (mergeLanes rs).bind fun ps => .value (p :: ps)

/-- The number whose bit `i` is the digest bit the `i`-th index selects. -/
def packBits (d : Digest) : List Nat → Nat
  | [] => 0
  | idx :: rest => digestBit d idx + 2 * packBits d rest

/-- Eval(k, d) with all positions of the run read at once. -/
def evalLanes (s : State) (k : Nat) (d : Digest) : Sweep Nat :=
  (mergeLanes ((List.range s.log2Bits.toNat).map fun i => readIndex s k i)).bind fun idxs =>
    .value (packBits d idxs)

/-- What the lanes of one group find: functions `k .. k + n - 1`, each on its own. -/
def laneGroup (s : State) (d : Digest) (k n : Nat) : List (Sweep Nat) :=
  (List.range n).map fun j => evalLanes s (k + j) d

/-- How many functions group `g` evaluates: LANES, or what is left of the H functions. -/
def groupSize (s : State) (g : Nat) : Nat :=
  min s.params.lanes (s.hashCount.toNat - g * s.params.lanes)

/-- How many groups of LANES functions the H functions make. -/
def groupCount (s : State) : Nat := (s.hashCount.toNat + s.params.lanes - 1) / s.params.lanes

/-- INSERT's phase 1 after its first `n` groups. -/
def positionsGroups (s : State) (d : Digest) : Nat → Sweep (List Nat)
  | 0 => .value []
  | g + 1 =>
    (positionsGroups s d g).bind fun ps =>
      (mergeLanes (laneGroup s d (g * s.params.lanes) (groupSize s g))).bind fun qs => .value (ps ++ qs)

/-- QUERY over one group: a lane after the first unset flag is discarded, whatever it found (43_engine.md R156). -/
def scanLanes (s : State) : List (Sweep Nat) → Sweep Bool
  | [] => .value true
  | r :: rs =>
    (r.bind fun p => readFlag s p).bind fun set => if set then scanLanes s rs else .value false

/-- QUERY after at most `n` groups. -/
def queryGroups (s : State) (d : Digest) : Nat → Sweep Bool
  | 0 => .value true
  | g + 1 =>
    (queryGroups s d g).bind fun present =>
      if present then scanLanes s (laneGroup s d (g * s.params.lanes) (groupSize s g)) else .value false

/-- HASHEVAL by an implementation that reads a run's positions at once. -/
def execHashevalLanes (k : U64) (dg : Digest) (s : State) : Result :=
  let op := (Instr.hasheval k dg).opcode
  withFilter op s
    (if s.hashCount.toNat ≤ k.toNat then raise .eRange op s
     else (evalLanes s k.toNat dg).finish op s fun p => respond op (BitVec.ofNat 64 p) s)

/-- INSERT by an implementation that evaluates LANES functions at once. -/
def execInsertLanes (dg : Digest) (s : State) : Result :=
  let op := (Instr.insert dg).opcode
  withFilter op s
    ((positionsGroups s dg (groupCount s)).finish op s fun ps =>
      (setFlags ps s).finish op s fun s' => respond op 0 s')

/-- QUERY by an implementation that evaluates LANES functions at once. -/
def execQueryLanes (dg : Digest) (s : State) : Result :=
  let op := (Instr.query dg).opcode
  withFilter op s
    ((queryGroups s dg (groupCount s)).finish op s fun present =>
      respond op (BitVec.setWidth 64 (BitVec.ofBool present)) s)

end Sys2Proof.Machine
end

