-- ==== Sys2Proof/Safety.lean ====
section
/-! DEFINITION. The terms claims about the BFE use: the invariant of 10_state.md R29, what "present" means for a
digest (43_engine.md R155), the checks of 60_exceptions.md R178 and the matrix of R192 as functions of their own, the
reset state's own conditions, and a list of commands run in order. -/

namespace Sys2Proof.Machine

/-! ### The invariant -/

/-- The parameters are legal (00_scope.md R8). -/
structure ParamsLegal (p : Config.Params) : Prop where
  memPositive : 1 ≤ p.memBytes
  memFits : p.memBytes ≤ sizeMax p
  lanesPositive : 1 ≤ p.lanes

/-- The invariants of 10_state.md R29, and those of the model's own representation: the parameters are legal, the
memory is in canonical form and lists bytes of the active filter's buffer only (log entries 1, 4, 5). -/
structure State.Inv (s : State) : Prop where
  /-- the parameters are legal (R8) -/
  params : ParamsLegal s.params
  /-- R29, 1 -/
  inactive : s.active = false → s.hashCount = 0 ∧ s.log2Bits = 0 ∧ s.fault = false
  /-- R29, 2: `1 <= hash_count <= SIZE_MAX` -/
  hashCount : s.active = true → 1 ≤ s.hashCount.toNat ∧ s.hashCount.toNat ≤ sizeMax s.params
  /-- R29, 2: `log2_bits <= LOG2_MAX` -/
  log2Bits : s.active = true → s.log2Bits.toNat ≤ log2Max s.params
  /-- R29, 2: `T + V <= min(SIZE_MAX, MEM_BYTES)` -/
  size : s.active = true → s.bufBytes ≤ min (sizeMax s.params) s.params.memBytes
  /-- R29, 3: `fault = 0` implies `fault_addr = 0` -/
  noFault : s.fault = false → s.faultAddr = 0
  /-- R29, 3: `fault = 1` implies `fault_addr < T` and `mem[fault_addr] >= 160` -/
  faulted : s.fault = true → s.faultAddr.toNat < s.tableBytes ∧
    (s.memRead s.faultAddr.toNat).any (fun b => decide (digestW ≤ b.toNat)) = true
  /-- the memory is in canonical form (log entry 4) -/
  memWf : Memory.wf s.mem = true
  /-- no byte outside the buffer is listed (log entry 5) -/
  memInside : ∀ c ∈ s.mem, c.1 < s.bufBytes

/-! ### What the filter holds -/

/-- Every hash function selects a set flag for the digest: what QUERY tests (43_engine.md R154). -/
def State.Present (s : State) (d : Digest) : Prop :=
  ∀ k, k < s.hashCount.toNat → selectedFlag s k d = .value true

/-- Flag `n` of the filter (20_memory.md R53, R54); false where the memory has no such byte. -/
def State.flag (s : State) (n : Nat) : Bool :=
  match s.memRead (flagOffset s n) with
  | some b => flagIn b n
  | none => false

/-! ### Checks and answers as functions of their own -/

/-- The operand checks of 60_exceptions.md R178, step 5, in the order of the command's own rule. -/
def operandCheck (i : Instr) (s : State) : Option Status :=
  match i with
  | .validate hc l2 =>
    match cap s.params hc.toNat l2.toNat with
    | .invalidParameter => some .eInval
    | .parametersTooLarge => some .e2Big
    | .ok _ => none
  | .config hc l2 =>
    match cap s.params hc.toNat l2.toNat with
    | .invalidParameter => some .eInval
    | .parametersTooLarge => some .e2Big
    | .ok size => if s.params.memBytes < size then some .eOom else none
  | .bufrd off => if s.bufBytes ≤ off.toNat then some .eRange else none
  | .bufwr off _ => if s.bufBytes ≤ off.toNat then some .eRange else none
  | .hasheval k _ => if s.hashCount.toNat ≤ k.toNat then some .eRange else none
  | .release => none
  | .rdreg _ => none
  | .sreset => none
  | .insert _ => none
  | .query _ => none

/-- The state check of 41_lifecycle.md R120 (60_exceptions.md R178, step 4). -/
def stateCheck (i : Instr) (s : State) : Option Status :=
  match i with
  | .config _ _ => if s.active then some .eState else none
  | .release => if s.active then none else some .eState
  | .bufrd _ => if s.active then none else some .eState
  | .bufwr _ _ => if s.active then none else some .eState
  | .hasheval _ _ => if s.active then none else some .eState
  | .insert _ => if s.active then none else some .eState
  | .query _ => if s.active then none else some .eState
  | .validate _ _ => none
  | .rdreg _ => none
  | .sreset => none

/-- The commands of 60_exceptions.md R178, step 2: executed with no further check. -/
def skipsChecks (i : Instr) : Bool :=
  match i with
  | .sreset => true
  | .rdreg _ => true
  | .validate _ _ => false
  | .config _ _ => false
  | .release => false
  | .bufrd _ => false
  | .bufwr _ _ => false
  | .hasheval _ _ => false
  | .insert _ => false
  | .query _ => false

/-- Steps 2 to 5 of 60_exceptions.md R178 for a decoded command: the first check that fails; none when every check
passes. -/
def firstCheck (i : Instr) (s : State) : Option Status :=
  if skipsChecks i then none
  else if s.fault then some .eFaulted
  else (stateCheck i s).or (operandCheck i s)

/-- Which command can end with which status (60_exceptions.md R192). -/
def mayEndWith (i : Instr) (e : Status) : Bool :=
  match i with
  | .validate _ _ => e ∈ [.ok, .eInval, .e2Big, .eFaulted]
  | .config _ _ => e ∈ [.ok, .eOom, .eInval, .e2Big, .eState, .eFaulted]
  | .release => e ∈ [.ok, .eState, .eFaulted]
  | .rdreg _ => e ∈ [.ok]
  | .sreset => e ∈ [.ok]
  | .bufrd _ => e ∈ [.ok, .eState, .eRange, .eFaulted]
  | .bufwr _ _ => e ∈ [.ok, .eState, .eRange, .eFaulted]
  | .hasheval _ _ => e ∈ [.ok, .eState, .eRange, .eTable, .eFaulted]
  | .insert _ => e ∈ [.ok, .eState, .eTable, .eFaulted]
  | .query _ => e ∈ [.ok, .eState, .eTable, .eFaulted]

/-- The response word an outcome handed to the host last; none where it is no next state. -/
def answerOf (r : Result) : Option RspWord :=
  match r with
  | .next t => t.rsps.getLast?
  | .fault _ => none
  | .refused _ => none

/-! ### Running commands in order -/

/-- The given commands, first to last, each to completion before the next (10_state.md R22). -/
def execAll : List Instr → State → Result
  | [], s => .next s
  | i :: is, s =>
    match exec i s with
    | .next s' => execAll is s'
    | .fault r => .fault r
    | .refused r => .refused r

/-- The commands that can change a flag from 1 to 0 or a table byte (20_memory.md R63, R68; 43_engine.md R155). -/
def voidsInserts (i : Instr) : Bool :=
  match i with
  | .bufwr _ _ => true
  | .release => true
  | .config _ _ => true
  | .sreset => true
  | .validate _ _ => false
  | .rdreg _ => false
  | .bufrd _ => false
  | .hasheval _ _ => false
  | .insert _ => false
  | .query _ => false

/-- The commands a host sends to restore a filter: CONFIG with its sizes, then BUFWR of every byte (42_buffer.md
R143). -/
def restoreCommands (hc : U64) (l2 : Byte) (bytes : List Byte) : List Instr :=
  .config hc l2 :: bytes.mapIdx fun off byte => .bufwr (BitVec.ofNat 64 off) byte

end Sys2Proof.Machine
end

