-- ==== Sys2Proof/Certificates/Slice0/Obligations.lean ====
section
/-! DEFINITION. The statements for the provers, each from the spec's numbered rules. Every statement reads a response
off the model's response channel `rsps` and a command off its command channel `cmds` (log entry 2). -/

open Sys2Proof Sys2Proof.Machine

/-! ### A step, and decoding -/

/-- 60_exceptions.md R178, 30_encoding.md R81: when the oldest word on the command channel decodes to a command, a
step is that command's meaning on the state without the word. -/
def Obligations.StepRunsTheDecodedCommand : Prop :=
  ∀ (s : State) (w : CmdWord) (rest : List CmdWord) (i : Instr),
    s.cmds = w :: rest → decode w = .ok i → step s = exec i { s with cmds := rest }

/-- 60_exceptions.md R175: an illegal word is answered E_ILLEGAL with `rop` its `op` field and data 0, and changes
nothing, in every state. -/
def Obligations.StepAnswersIllegalWords : Prop :=
  ∀ (s : State) (w : CmdWord) (rest : List CmdWord) (e : Illegal),
    s.cmds = w :: rest → decode w = .error e →
      step s = .next { s with cmds := rest, rsps := s.rsps ++ [Response.word ⟨.eIllegal, opField w, 0⟩] }

/-- The model's choice (log entry 3) on 60_exceptions.md section 6: with no command word offered, a step leaves the
whole state. -/
def Obligations.StepIdlesOnAnEmptyChannel : Prop :=
  ∀ s : State, s.cmds = [] → step s = .next s

/-- 30_encoding.md sections 2 and 4: no bit of a command is dropped. Every operand takes every value of its field. -/
def Obligations.DecodeOfEncodeIsTheCommand : Prop :=
  ∀ i : Instr, i.wf = true → decode (encode i) = .ok i

/-- 30_encoding.md sections 2 and 4: a word has one meaning, a decoded command is well-formed, and its encoding is the
word it was decoded from. -/
def Obligations.DecodedWordsAreEncodings : Prop :=
  ∀ (w : CmdWord) (i : Instr), decode w = .ok i → i.wf = true ∧ encode i = w

/-- 30_encoding.md R89: the decoder is total and reads a word as the first row of the opcode table whose
`(w AND mask) = match`, with the operands of that row, and as illegal where no row matches; the rows do not overlap. -/
def Obligations.DecoderFollowsTheOpcodeTable : Prop :=
  (∀ w : CmdWord,
    match opcodeTable.find? (fun r => r.matches w) with
    | some r => ∃ i, decode w = .ok i ∧ i.mnemonic = r.mnemonic ∧
        (match i with
         | .validate hc l2 => hc = aField w ∧ l2 = bField w
         | .config hc l2 => hc = aField w ∧ l2 = bField w
         | .release => True
         | .rdreg n => n = bField w
         | .sreset => True
         | .bufrd off => off = aField w
         | .bufwr off byte => off = aField w ∧ byte = bField w
         | .hasheval k dg => k = aField w ∧ dg = dField w
         | .insert dg => dg = dField w
         | .query dg => dg = dField w)
    | none => ∃ e, decode w = .error e) ∧
  (∀ w : CmdWord, opcodeTable.Pairwise fun r r' => ¬ (r.matches w = true ∧ r'.matches w = true))

/-- 30_encoding.md R100: the worked encodings of the spec, the transfer bytes of the first and the last, the digest the
literal of the last three stands for, and the response word of the first. A sanity statement. -/
def Obligations.WorkedEncodingsOfTheSpec : Prop :=
  (decode 0x010F000000000000000000050000000000000000000000000000000000000000 = .ok (.validate 5 15) ∧
   decode 0x0204000000000000000000020000000000000000000000000000000000000000 = .ok (.config 2 4) ∧
   decode 0x0300000000000000000000000000000000000000000000000000000000000000 = .ok .release ∧
   decode 0x0402000000000000000000000000000000000000000000000000000000000000 =
     .ok (.rdreg ControlReg.status.number) ∧
   decode 0x0500000000000000000000000000000000000000000000000000000000000000 = .ok .sreset) ∧
  (decode 0x1000000000000000000000080000000000000000000000000000000000000000 = .ok (.bufrd 8) ∧
   decode 0x119F000000000000000000020000000000000000000000000000000000000000 = .ok (.bufwr 2 159) ∧
   decode 0x2000000000000000000000018000000000000000000000000000000000000181 =
     .ok (.hasheval 1 0x8000000000000000000000000000000000000181) ∧
   decode 0x2100000000000000000000008000000000000000000000000000000000000181 =
     .ok (.insert 0x8000000000000000000000000000000000000181) ∧
   decode 0x2200000000000000000000008000000000000000000000000000000000000181 =
     .ok (.query 0x8000000000000000000000000000000000000181)) ∧
  CmdWord.toBytes 0x010F000000000000000000050000000000000000000000000000000000000000 =
    List.replicate 20 0x00 ++ [0x05, 0, 0, 0, 0, 0, 0, 0, 0, 0, 0x0F, 0x01] ∧
  CmdWord.toBytes 0x2200000000000000000000008000000000000000000000000000000000000181 =
    [0x81, 0x01] ++ List.replicate 17 0x00 ++ [0x80] ++ List.replicate 8 0x00 ++ [0, 0, 0, 0x22] ∧
  digestOfBytes ([0x81, 0x01] ++ List.replicate 17 0x00 ++ [0x80]) =
    some 0x8000000000000000000000000000000000000181 ∧
  Response.word ⟨.ok, 0x01, 4171⟩ = 0x0001000000000000104B

/-- 30_encoding.md sections 7 and 8: the assembler turns each line of the worked encodings into the command whose word the
spec shows. A sanity statement. -/
def Obligations.WorkedLinesAssemble : Prop :=
  assembleText "VALIDATE 5, 15\nCONFIG 2, 4\nRELEASE\nRDREG STATUS\nSRESET\nBUFRD 8\nBUFWR 2, 159".toList =
    some [.validate 5 15, .config 2 4, .release, .rdreg 0x02, .sreset, .bufrd 8, .bufwr 2 159] ∧
  assembleText "HASHEVAL 1, #8101000000000000000000000000000000000080".toList =
    some [.hasheval 1 0x8000000000000000000000000000000000000181] ∧
  assembleText "INSERT #8101000000000000000000000000000000000080".toList =
    some [.insert 0x8000000000000000000000000000000000000181] ∧
  assembleText "QUERY #8101000000000000000000000000000000000080".toList =
    some [.query 0x8000000000000000000000000000000000000181] ∧
  [Instr.validate 5 15, .config 2 4, .release, .rdreg 0x02, .sreset].map encode =
    [0x010F000000000000000000050000000000000000000000000000000000000000,
     0x0204000000000000000000020000000000000000000000000000000000000000,
     0x0300000000000000000000000000000000000000000000000000000000000000,
     0x0402000000000000000000000000000000000000000000000000000000000000,
     0x0500000000000000000000000000000000000000000000000000000000000000] ∧
  [Instr.bufrd 8, .bufwr 2 159, .hasheval 1 0x8000000000000000000000000000000000000181].map encode =
    [0x1000000000000000000000080000000000000000000000000000000000000000,
     0x119F000000000000000000020000000000000000000000000000000000000000,
     0x2000000000000000000000018000000000000000000000000000000000000181] ∧
  [Instr.insert 0x8000000000000000000000000000000000000181,
      .query 0x8000000000000000000000000000000000000181].map encode =
    [0x2100000000000000000000008000000000000000000000000000000000000181,
     0x2200000000000000000000008000000000000000000000000000000000000181]

/-- 30_encoding.md R90: a word whose `op` is not one of the ten defined values is answered E_ILLEGAL with `rop` its
`op`, data 0, and changes no state, in every lifecycle state; the all-zero and the all-ones word are such words. -/
def Obligations.UndefinedOpcodesAreIllegal : Prop :=
  (∀ (s : State) (w : CmdWord) (rest : List CmdWord), s.cmds = w :: rest →
    opField w ∉ ([0x01, 0x02, 0x03, 0x04, 0x05, 0x10, 0x11, 0x20, 0x21, 0x22] : List Byte) →
      step s = .next { s with cmds := rest, rsps := s.rsps ++ [Response.word ⟨.eIllegal, opField w, 0⟩] }) ∧
  opField 0 = 0x00 ∧ opField (BitVec.allOnes 256) = 0xFF

/-- 30_encoding.md R91: a non-zero `z`, or a non-zero field the command does not use (R83's table), is answered as an
undefined opcode is. -/
def Obligations.NonzeroUnusedFieldsAreIllegal : Prop :=
  ∀ (s : State) (w : CmdWord) (rest : List CmdWord), s.cmds = w :: rest →
    (zField w ≠ 0 ∨
     (opField w ∈ ([0x01, 0x02, 0x11] : List Byte) ∧ dField w ≠ 0) ∨
     (opField w ∈ ([0x03, 0x05] : List Byte) ∧ (bField w ≠ 0 ∨ aField w ≠ 0 ∨ dField w ≠ 0)) ∨
     (opField w = 0x04 ∧ (aField w ≠ 0 ∨ dField w ≠ 0)) ∨
     (opField w = 0x10 ∧ (bField w ≠ 0 ∨ dField w ≠ 0)) ∨
     (opField w = 0x20 ∧ bField w ≠ 0) ∨
     (opField w ∈ ([0x21, 0x22] : List Byte) ∧ (bField w ≠ 0 ∨ aField w ≠ 0))) →
      step s = .next { s with cmds := rest, rsps := s.rsps ++ [Response.word ⟨.eIllegal, opField w, 0⟩] }

/-- 30_encoding.md R92: RDREG of a register number of 0x0A or more is answered as an undefined opcode is; the opcode
table's two rows of RDREG take the numbers 0x00 to 0x07 and 0x08 to 0x09. -/
def Obligations.ReservedRegisterNumbersAreIllegal : Prop :=
  (∀ (s : State) (w : CmdWord) (rest : List CmdWord), s.cmds = w :: rest →
    opField w = 0x04 → 0x0A ≤ (bField w).toNat →
      step s = .next { s with cmds := rest, rsps := s.rsps ++ [Response.word ⟨.eIllegal, 0x04, 0⟩] }) ∧
  ∃ r r', opcodeTable.filter (fun row => row.mnemonic == "RDREG") = [r, r'] ∧
    ∀ n : Byte, (r.matches (packFields 0x04 n 0 0) = true ↔ n.toNat ≤ 0x07) ∧
      (r'.matches (packFields 0x04 n 0 0) = true ↔ 0x08 ≤ n.toNat ∧ n.toNat ≤ 0x09)

/-- 20_memory.md R59: a command word or a response word travels least significant byte first, byte `n` being bits
`8n+7 : 8n`, so bytes 0 to 19 of a command are the digest's bytes and bytes 20 to 27 the operand `a` little-endian;
and the receiver puts the same word together again. -/
def Obligations.WordsTravelLeastSignificantByteFirst : Prop :=
  (∀ w : CmdWord, (CmdWord.toBytes w).length = 32 ∧
    (∀ (n : Nat) (j : Nat), n < 32 → j < 8 →
      ((CmdWord.toBytes w).getD n 0).getLsbD j = w.getLsbD (8 * n + j)) ∧
    digestOfBytes ((CmdWord.toBytes w).take 20) = some (dField w) ∧
    natOfBytes (((CmdWord.toBytes w).drop 20).take 8) = (aField w).toNat ∧
    ∀ rest : List Byte, CmdWord.ofBytes? (CmdWord.toBytes w ++ rest) = some (w, rest)) ∧
  (∀ r : RspWord, (RspWord.toBytes r).length = 10 ∧
    ∀ (n : Nat) (j : Nat), n < 10 → j < 8 →
      ((RspWord.toBytes r).getD n 0).getLsbD j = r.getLsbD (8 * n + j))

/-- 30_encoding.md section 3: the fields of the response word stand where its format puts them, and the status codes
are those of 60_exceptions.md section 1. -/
def Obligations.ResponseWordHoldsItsFields : Prop :=
  (∀ r : Response, r.word.toNat = r.status.code.toNat * 2 ^ 72 + r.rop.toNat * 2 ^ 64 + r.data.toNat) ∧
  [Status.ok, .eOom, .eInval, .e2Big, .eIllegal, .eState, .eRange, .eTable, .eFaulted].map Status.code =
    [0x00, 0x01, 0x02, 0x03, 0x10, 0x11, 0x12, 0x13, 0x14]

/-- 30_encoding.md section 7: INFO, TBLWR and RUN stand for the listed commands, in order; RUN is rejected when the list's
length is not L, when an index does not fit its byte, and, where L is not 0, when an offset does not fit its field. That
with L = 0 a RUN of the empty list stands for no command whatever the size of `k`, which is not checked, is the model's
choice (log entry 12; the clause `L = 0`): the spec does not say whether `k` is checked there. -/
def Obligations.PseudoInstructionsExpand : Prop :=
  ∀ (env : AsmEnv) (L : Nat), env.lookup "L" = some (L : Int) →
    asmCommands env .info =
      some [.rdreg 0x03, .rdreg 0x04, .rdreg 0x05, .rdreg 0x06, .rdreg 0x07] ∧
    (∀ k i idx : Nat, k * L + i < 2 ^ 64 → idx < 256 →
      asmCommands env (.tblwr (.num k) (.num i) (.num idx)) =
        some [.bufwr (BitVec.ofNat 64 (k * L + i)) (BitVec.ofNat 8 idx)]) ∧
    (∀ (k : Nat) (idxs : List Nat),
      asmCommands env (.run (.num k) (idxs.map AsmExpr.num)) =
        if idxs.length = L ∧ (∀ idx ∈ idxs, idx < 256) ∧ (L = 0 ∨ k * L + (L - 1) < 2 ^ 64) then
          some (idxs.mapIdx fun i idx => .bufwr (BitVec.ofNat 64 (k * L + i)) (BitVec.ofNat 8 idx))
        else none)

/-! ### The parameter validator -/

/-- 40_validate.md R111: Cap in D00's words, for every `hc` and `l2`: InvalidParameter when `hc` is 0, otherwise the
exact size `hc * l2 + ceil(2^l2 / 8)` when every limit holds, otherwise ParametersTooLarge. -/
def Obligations.CapIsTheExactSizeOrTheFailure : Prop :=
  ∀ (p : Config.Params) (hc l2 : Nat),
    cap p hc l2 =
      if hc = 0 then .invalidParameter
      else if l2 ≤ min (sizeWBits p) 160 ∧ hc ≤ 2 ^ 64 - 1 ∧ hc ≤ 2 ^ sizeWBits p - 1 ∧
          hc * l2 + (2 ^ l2 + 7) / 8 ≤ 2 ^ sizeWBits p - 1 then .ok (hc * l2 + (2 ^ l2 + 7) / 8)
      else .parametersTooLarge

/-- 40_validate.md R119: the results of Cap at the corners, for both widths of the size type. A sanity statement. -/
def Obligations.CapAtTheCorners : Prop :=
  (∀ m l : Nat,
    let c := cap ⟨.w64, m, l⟩
    (c 0 10 = .invalidParameter ∧ c 0 200 = .invalidParameter ∧ c 1 0 = .ok 1 ∧ c 1 1 = .ok 2 ∧ c 1 2 = .ok 3 ∧
     c 1 3 = .ok 4 ∧ c 1 4 = .ok 6 ∧ c 2 4 = .ok 10 ∧ c 5 15 = .ok 4171 ∧ c 3 64 = .ok 2305843009213694144) ∧
    (c 1 65 = .parametersTooLarge ∧ c 1 160 = .parametersTooLarge ∧ c 1 255 = .parametersTooLarge ∧
     c (2 ^ 62) 4 = .parametersTooLarge ∧ c (2 ^ 62 - 1) 4 = .ok 18446744073709551614 ∧
     c (2 ^ 58 - 1) 64 = .parametersTooLarge ∧ c (2 ^ 64 - 1) 1 = .parametersTooLarge ∧
     c (2 ^ 64 - 2) 1 = .ok 18446744073709551615 ∧ c (2 ^ 64 - 1) 0 = .ok 1)) ∧
  (∀ m l : Nat,
    let c := cap ⟨.w32, m, l⟩
    c (2 ^ 32) 1 = .parametersTooLarge ∧ c (2 ^ 32 - 1) 0 = .ok 1 ∧ c (2 ^ 32 - 1) 1 = .parametersTooLarge ∧
    c 1 32 = .ok 536870944 ∧ c 1 33 = .parametersTooLarge ∧ c 0 33 = .invalidParameter ∧
    c (2 ^ 30) 4 = .parametersTooLarge ∧ c (2 ^ 30 - 1) 4 = .ok 4294967294 ∧
    c (2 ^ 27 - 1) 32 = .parametersTooLarge ∧ c 5 15 = .ok 4171)

/-- 40_validate.md section 2: outside FAULT, VALIDATE answers what Cap gives, the size exactly, and leaves the whole
state, whether a filter is active or not. -/
def Obligations.ValidateAnswersCap : Prop :=
  ∀ (s : State) (hc : U64) (l2 : Byte), s.fault = false →
    exec (.validate hc l2) s = .next { s with rsps := s.rsps ++
      [match cap s.params hc.toNat l2.toNat with
       | .ok size => Response.word ⟨.ok, 0x01, BitVec.ofNat 64 size⟩
       | .invalidParameter => Response.word ⟨.eInval, 0x01, 0⟩
       | .parametersTooLarge => Response.word ⟨.e2Big, 0x01, 0⟩] } ∧
    (∀ size, cap s.params hc.toNat l2.toNat = .ok size → (BitVec.ofNat 64 size).toNat = size)

/-! ### Lifecycle and system commands -/

/-- 41_lifecycle.md section 2: a CONFIG in EMPTY whose size Cap accepts and the memory holds creates the filter: the
two parameters recorded, every byte of the buffer 0, the size answered, and nothing else changed. -/
def Obligations.ConfigCreatesTheFilter : Prop :=
  ∀ (s : State) (hc : U64) (l2 : Byte) (size : Nat),
    s.fault = false → s.active = false → cap s.params hc.toNat l2.toNat = .ok size → size ≤ s.params.memBytes →
    ∃ t, exec (.config hc l2) s = .next t ∧
      t = { s with active := true, hashCount := hc, log2Bits := l2, mem := t.mem,
                   rsps := s.rsps ++ [Response.word ⟨.ok, 0x02, BitVec.ofNat 64 size⟩] } ∧
      (BitVec.ofNat 64 size).toNat = size ∧ t.bufBytes = size ∧ t.tableBytes = hc.toNat * l2.toNat ∧
      ∀ off, off < size → t.memRead off = some 0

/-- 41_lifecycle.md R126: CONFIG leaves every byte of the new buffer 0, so every stored index is 0 and every hash
function returns L copies of digest bit 0: all ones or zero. -/
def Obligations.FreshFilterHashesToDigestBitZero : Prop :=
  ∀ (s t : State) (hc : U64) (l2 : Byte) (data : U64),
    exec (.config hc l2) s = .next t → t.rsps = s.rsps ++ [Response.word ⟨.ok, 0x02, data⟩] →
    (∀ off, off < t.bufBytes → t.memRead off = some 0) ∧
    ∀ (k : Nat) (d : Digest), k < hc.toNat →
      eval t k d = .value (if d.getLsbD 0 then 2 ^ l2.toNat - 1 else 0)

/-- 60_exceptions.md R172: E_OOM is raised by CONFIG alone, exactly when Cap is reached and returns Ok(size) with
size > MEM_BYTES; it records nothing and leaves the state. -/
def Obligations.OomRaisedExactlyWhen : Prop :=
  ∀ (i : Instr) (s : State),
    exec i s = .next { s with rsps := s.rsps ++ [Response.word ⟨.eOom, i.opcode, 0⟩] } ↔
      ∃ hc l2 size, i = .config hc l2 ∧ s.fault = false ∧ s.active = false ∧
        cap s.params hc.toNat l2.toNat = .ok size ∧ s.params.memBytes < size

/-- 60_exceptions.md R173 and R174: E_INVAL is raised by VALIDATE and CONFIG exactly when their operand checks are
reached and `hash_count` is 0, E_2BIG exactly when it is not 0 and a later step of Cap fails; both record nothing. -/
def Obligations.InvalAndTooBigRaisedExactlyWhen : Prop :=
  ∀ (i : Instr) (s : State),
    (exec i s = .next { s with rsps := s.rsps ++ [Response.word ⟨.eInval, i.opcode, 0⟩] } ↔
      ∃ hc l2, (i = .validate hc l2 ∨ i = .config hc l2 ∧ s.active = false) ∧ s.fault = false ∧ hc = 0) ∧
    (exec i s = .next { s with rsps := s.rsps ++ [Response.word ⟨.e2Big, i.opcode, 0⟩] } ↔
      ∃ hc l2, (i = .validate hc l2 ∨ i = .config hc l2 ∧ s.active = false) ∧ s.fault = false ∧ hc ≠ 0 ∧
        cap s.params hc.toNat l2.toNat = .parametersTooLarge)

/-- 60_exceptions.md R177: outside FAULT, E_STATE is raised exactly by CONFIG in ACTIVE and by RELEASE, BUFRD, BUFWR,
HASHEVAL, INSERT and QUERY in EMPTY; it records nothing and leaves the state. -/
def Obligations.StateErrorRaisedExactlyWhen : Prop :=
  ∀ (i : Instr) (s : State),
    exec i s = .next { s with rsps := s.rsps ++ [Response.word ⟨.eState, i.opcode, 0⟩] } ↔
      s.fault = false ∧
      (match i with
       | .config _ _ => s.active = true
       | .release => s.active = false
       | .bufrd _ => s.active = false
       | .bufwr _ _ => s.active = false
       | .hasheval _ _ => s.active = false
       | .insert _ => s.active = false
       | .query _ => s.active = false
       | .validate _ _ => False
       | .rdreg _ => False
       | .sreset => False)

/-- 60_exceptions.md R179: in ACTIVE, E_RANGE is raised exactly by BUFRD and BUFWR with `a >= BUF_BYTES` and by
HASHEVAL with `a >= hash_count`; it records nothing and leaves the state. -/
def Obligations.RangeErrorRaisedExactlyWhen : Prop :=
  ∀ (i : Instr) (s : State),
    exec i s = .next { s with rsps := s.rsps ++ [Response.word ⟨.eRange, i.opcode, 0⟩] } ↔
      s.fault = false ∧ s.active = true ∧
      (match i with
       | .bufrd off => s.bufBytes ≤ off.toNat
       | .bufwr off _ => s.bufBytes ≤ off.toNat
       | .hasheval k _ => s.hashCount.toNat ≤ k.toNat
       | .validate _ _ => False
       | .config _ _ => False
       | .release => False
       | .rdreg _ => False
       | .sreset => False
       | .insert _ => False
       | .query _ => False)

/-- 60_exceptions.md R181: while `fault` is 1 every command except RDREG and SRESET is answered E_FAULTED, and none is
otherwise; it records nothing, `fault_addr` keeps the offset of the first fault, and the state is unchanged. -/
def Obligations.FaultedRaisedExactlyWhen : Prop :=
  ∀ (i : Instr) (s : State),
    exec i s = .next { s with rsps := s.rsps ++ [Response.word ⟨.eFaulted, i.opcode, 0⟩] } ↔
      s.fault = true ∧ i ≠ .sreset ∧ ∀ n, i ≠ .rdreg n

/-- 60_exceptions.md R182: a command word answered with any status but OK and E_TABLE leaves the whole state: the next
command executes as if this one had never been sent. -/
def Obligations.RefusedCommandsChangeNothing : Prop :=
  ∀ (s t : State) (w : CmdWord) (rest : List CmdWord) (e : Status) (rop : Byte) (data : U64),
    s.cmds = w :: rest → step s = .next t → t.rsps = s.rsps ++ [Response.word ⟨e, rop, data⟩] →
    e ≠ .ok → e ≠ .eTable → t = { s with cmds := rest, rsps := t.rsps }

/-- 60_exceptions.md R178: a command is checked in the fixed order and reports the first check that fails, with `rop`
the word's `op`; a command whose checks all pass ends OK or, for HASHEVAL, INSERT and QUERY, with E_TABLE. -/
def Obligations.FirstFailingCheckIsReported : Prop :=
  ∀ (s : State) (w : CmdWord) (rest : List CmdWord), s.cmds = w :: rest →
    match decode w with
    | .error _ => step s =
        .next { s with cmds := rest, rsps := s.rsps ++ [Response.word ⟨.eIllegal, opField w, 0⟩] }
    | .ok i =>
      match firstCheck i s with
      | some e => step s = .next { s with cmds := rest, rsps := s.rsps ++ [Response.word ⟨e, opField w, 0⟩] }
      | none => ∀ t, step s = .next t → ∃ e data, t.rsps = s.rsps ++ [Response.word ⟨e, opField w, data⟩] ∧
          (e = .ok ∨ (e = .eTable ∧ data = 0 ∧
            ((∃ k d, i = .hasheval k d) ∨ (∃ d, i = .insert d) ∨ (∃ d, i = .query d))))

/-- 60_exceptions.md section 2, the table of commands and statuses: a command never ends with a status its row leaves
blank, every status but OK carries data 0, and the answer is one response word that copies the opcode. -/
def Obligations.CommandsEndOnlyWithTheirStatuses : Prop :=
  ∀ (i : Instr) (s t : State), i.wf = true → exec i s = .next t →
    ∃ e data, mayEndWith i e = true ∧ (e ≠ .ok → data = 0) ∧
      t.rsps = s.rsps ++ [Response.word ⟨e, i.opcode, data⟩]

/-- 41_lifecycle.md section 3: RELEASE in ACTIVE clears `active`, `hash_count` and `log2_bits`, answers OK with data 0
and changes no other register; the derived registers of the filter then read 0. -/
def Obligations.ReleaseDestroysTheFilter : Prop :=
  ∀ s : State, s.fault = false → s.active = true →
    ∃ t, exec .release s = .next t ∧
      t = { s with active := false, hashCount := 0, log2Bits := 0, mem := t.mem,
                   rsps := s.rsps ++ [Response.word ⟨.ok, 0x03, 0⟩] } ∧
      t.lifecycle = some .empty ∧
      ∀ r, r ∈ [ControlReg.status, .hashCount, .log2Bits, .bitCountLo, .bitCountHi, .bufBytes, .tableBytes] →
        readReg r t = 0

/-- 10_state.md R44: after hardware reset, and identically after SRESET in any state, every scalar is 0, the lifecycle
is EMPTY, the registers but CAP and MEMSZ read 0 and those two their constants, and no byte of `mem` can be observed;
no command is in progress after hardware reset, and SRESET is answered OK. -/
def Obligations.ResetAndSresetGiveTheResetState : Prop :=
  let IsReset := fun (p : Config.Params) (t : State) =>
    t.params = p ∧ t.active = false ∧ t.fault = false ∧ t.hashCount = 0 ∧ t.log2Bits = 0 ∧ t.faultAddr = 0 ∧
    t.lifecycle = some .empty ∧ (∀ off, t.memRead off = none) ∧
    readReg .cap t = capReg p ∧ readReg .memsz t = BitVec.ofNat 64 p.memBytes ∧
    ∀ r, r ≠ .cap → r ≠ .memsz → readReg r t = 0
  (∀ p, IsReset p (State.hardReset p) ∧ (State.hardReset p).cmds = []) ∧
  ∀ s : State, ∃ t, exec .sreset s = .next t ∧ IsReset s.params t ∧ t.cmds = s.cmds ∧
    t.rsps = s.rsps ++ [Response.word ⟨.ok, 0x05, 0⟩]

/-- 10_state.md R31, R32, R33: RDREG of CAP, MEMSZ and STATUS, in every lifecycle state: the constants of the
implementation, MEM_BYTES, and the two flags; the state is left as it is. -/
def Obligations.RdregOfTheConstantAndFlagRegisters : Prop :=
  ∀ s : State, s.Inv →
    exec (.rdreg 0x00) s = .next { s with rsps := s.rsps ++ [Response.word ⟨.ok, 0x04,
      match s.params.sizeW with
      | .w64 => 0x00000001404000A0
      | .w32 => 0x00000001202000A0⟩] } ∧
    (∃ data, exec (.rdreg 0x01) s = .next { s with rsps := s.rsps ++ [Response.word ⟨.ok, 0x04, data⟩] } ∧
      data.toNat = s.params.memBytes) ∧
    (∃ data, exec (.rdreg 0x02) s = .next { s with rsps := s.rsps ++ [Response.word ⟨.ok, 0x04, data⟩] } ∧
      (s.lifecycle = some .empty ∧ data = 0 ∨ s.lifecycle = some .active ∧ data = 1 ∨
       s.lifecycle = some .fault ∧ data = 3))

/-- 10_state.md R34, R35, R36, R38, R39: RDREG of the filter's registers, BUF_BYTES among them, and of FAULT_ADDR, in every lifecycle state: exact values,
0 while no filter is active, bit_count over two registers; the state is left as it is. -/
def Obligations.RdregOfTheFilterRegisters : Prop :=
  ∀ s : State, s.Inv →
    ∃ hc l2 lo hi buf tab : U64,
      (∀ nv, nv ∈ [((0x03 : Byte), hc), (0x04, l2), (0x05, lo), (0x06, hi), (0x07, buf), (0x08, tab),
          (0x09, s.faultAddr)] →
        exec (.rdreg nv.1) s = .next { s with rsps := s.rsps ++ [Response.word ⟨.ok, 0x04, nv.2⟩] }) ∧
      hc = s.hashCount ∧ l2.toNat = s.log2Bits.toNat ∧
      hi.toNat * 2 ^ 64 + lo.toNat = (if s.active then 2 ^ s.log2Bits.toNat else 0) ∧
      tab.toNat = (if s.active then s.hashCount.toNat * s.log2Bits.toNat else 0) ∧
      buf.toNat = (if s.active then s.hashCount.toNat * s.log2Bits.toNat + (2 ^ s.log2Bits.toNat + 7) / 8 else 0) ∧
      (s.active = false → hc = 0 ∧ l2 = 0)

/-! ### Buffer access -/

/-- 42_buffer.md section on BUFRD: in ACTIVE, a read below BUF_BYTES answers the byte, zero-extended, and leaves the
whole state. -/
def Obligations.BufrdAnswersTheByte : Prop :=
  ∀ (s : State) (off : U64), s.Inv → s.active = true → s.fault = false → off.toNat < s.bufBytes →
    ∃ b, s.memRead off.toNat = some b ∧
      exec (.bufrd off) s = .next { s with rsps := s.rsps ++ [Response.word ⟨.ok, 0x10, b.setWidth 64⟩] }

/-- 42_buffer.md section on BUFWR: in ACTIVE, a write below BUF_BYTES stores the byte, whatever its value, answers OK
with data 0, and leaves every other byte and every register. -/
def Obligations.BufwrStoresOneByte : Prop :=
  ∀ (s : State) (off : U64) (byte : Byte), s.Inv → s.active = true → s.fault = false → off.toNat < s.bufBytes →
    ∃ t, exec (.bufwr off byte) s = .next t ∧
      t = { s with mem := t.mem, rsps := s.rsps ++ [Response.word ⟨.ok, 0x11, 0⟩] } ∧
      t.memRead off.toNat = some byte ∧ ∀ o, o ≠ off.toNat → t.memRead o = s.memRead o

/-- 20_memory.md R62: reading a byte does not change it; reading it twice with no write between answers the same
value; writing the value a byte already holds changes nothing. -/
def Obligations.BufferAccessHasNoSideEffect : Prop :=
  ∀ (s : State) (off : U64), s.Inv → s.active = true → s.fault = false → off.toNat < s.bufBytes →
    (∃ t u r, exec (.bufrd off) s = .next t ∧ exec (.bufrd off) t = .next u ∧ t = { s with rsps := s.rsps ++ [r] } ∧
      u = { s with rsps := s.rsps ++ [r, r] }) ∧
    (∀ byte, s.memRead off.toNat = some byte →
      exec (.bufwr off byte) s = .next { s with rsps := s.rsps ++ [Response.word ⟨.ok, 0x11, 0⟩] })

/-- 20_memory.md section 6: a BUFWR is seen by the very next BUFRD of the offset, and by the very next evaluation that
reads it as a stored index. -/
def Obligations.WritesAreSeenByTheNextCommand : Prop :=
  ∀ (s t : State) (off : U64) (byte : Byte), s.Inv → exec (.bufwr off byte) s = .next t →
    t.rsps = s.rsps ++ [Response.word ⟨.ok, 0x11, 0⟩] →
    exec (.bufrd off) t = .next { t with rsps := t.rsps ++ [Response.word ⟨.ok, 0x10, byte.setWidth 64⟩] } ∧
    ∀ (k i : Nat), k < s.hashCount.toNat → i < s.log2Bits.toNat → off.toNat = k * s.log2Bits.toNat + i →
      readIndex t k i = if 160 ≤ byte.toNat then .tableFault off.toNat else .value byte.toNat

/-! ### The engine -/

/-- 43_engine.md R151: Eval builds the number whose bit `i` is the digest bit the `i`-th stored index of the run
selects, and meets a table fault exactly at the first index of 160 or more. -/
def Obligations.EvalSelectsDigestBits : Prop :=
  ∀ (s : State) (k : Nat) (d : Digest), s.Inv → s.active = true → k < s.hashCount.toNat →
    (∀ p, eval s k d = .value p ↔
      p < 2 ^ s.log2Bits.toNat ∧ ∀ i, i < s.log2Bits.toNat →
        ∃ idx, s.memRead (k * s.log2Bits.toNat + i) = some idx ∧ idx.toNat < 160 ∧
          p.testBit i = d.getLsbD idx.toNat) ∧
    (∀ off, eval s k d = .tableFault off ↔
      ∃ i, i < s.log2Bits.toNat ∧ off = k * s.log2Bits.toNat + i ∧
        (∃ idx, s.memRead off = some idx ∧ 160 ≤ idx.toNat) ∧
        ∀ j, j < i → ∃ idx, s.memRead (k * s.log2Bits.toNat + j) = some idx ∧ idx.toNat < 160) ∧
    ((∃ p, eval s k d = .value p) ∨ ∃ off, eval s k d = .tableFault off)

/-- 20_memory.md section 5: the offsets HASHEVAL, INSERT and QUERY compute are offsets of the buffer, and a table
offset lies below the bit vector. -/
def Obligations.ComputedOffsetsAreLegal : Prop :=
  ∀ s : State, s.active = true →
    (∀ k i, k < s.hashCount.toNat → i < s.log2Bits.toNat → tableOffset s k i < s.tableBytes) ∧
    (∀ n, n < 2 ^ s.log2Bits.toNat → s.tableBytes ≤ flagOffset s n ∧ flagOffset s n < s.bufBytes)

/-- 43_engine.md section on HASHEVAL: in ACTIVE, with `k < hash_count` and a run that evaluates to `p`, HASHEVAL
answers `p` exactly and leaves the whole state. -/
def Obligations.HashevalAnswersTheHashValue : Prop :=
  ∀ (s : State) (k : U64) (d : Digest) (p : Nat), s.Inv → s.active = true → s.fault = false →
    k.toNat < s.hashCount.toNat → eval s k.toNat d = .value p →
    exec (.hasheval k d) s = .next { s with rsps := s.rsps ++ [Response.word ⟨.ok, 0x20, BitVec.ofNat 64 p⟩] } ∧
    (BitVec.ofNat 64 p).toNat = p ∧ p < 2 ^ s.log2Bits.toNat

/-- 43_engine.md section 2, 20_memory.md sections 1 and 4: in ACTIVE, with every run good, INSERT answers OK with data 0
and sets exactly the bits the hash functions select: bit `j` of a byte afterwards is what it was, or is the flag of some
function's value; no other bit of the buffer (the non-flag bits of a short bit vector among them) and no register
changes. -/
def Obligations.InsertSetsExactlyTheSelectedFlags : Prop :=
  ∀ (s : State) (d : Digest), s.Inv → s.active = true → s.fault = false →
    (∀ k, k < s.hashCount.toNat → ∃ p, eval s k d = .value p) →
    ∃ t, exec (.insert d) s = .next t ∧
      t = { s with mem := t.mem, rsps := s.rsps ++ [Response.word ⟨.ok, 0x21, 0⟩] } ∧
      (∀ off b, s.memRead off = some b → ∃ b', t.memRead off = some b' ∧
        ∀ j, j < 8 → (b'.getLsbD j = true ↔ b.getLsbD j = true ∨
          ∃ k p, k < s.hashCount.toNat ∧ eval s k d = .value p ∧ off = flagOffset s p ∧ j = p % 8)) ∧
      (∀ off, s.memRead off = none → t.memRead off = none)

/-- 20_memory.md section 4: INSERT is idempotent: after an INSERT that ended OK, the same INSERT ends OK and changes
nothing. -/
def Obligations.InsertIsIdempotent : Prop :=
  ∀ (s t : State) (d : Digest), s.Inv → exec (.insert d) s = .next t →
    t.rsps = s.rsps ++ [Response.word ⟨.ok, 0x21, 0⟩] →
    exec (.insert d) t = .next { t with rsps := t.rsps ++ [Response.word ⟨.ok, 0x21, 0⟩] }

/-- 43_engine.md section 2: OR-ing bits into bytes commutes: two INSERTs, one after the other, leave the same state in
either order, whatever they end with. -/
def Obligations.InsertsCommute : Prop :=
  ∀ (s t u t' u' : State) (d d' : Digest), s.Inv →
    exec (.insert d) s = .next t → exec (.insert d') t = .next u →
    exec (.insert d') s = .next t' → exec (.insert d) t' = .next u' →
    u = u'

/-- 43_engine.md section 3: in ACTIVE, QUERY answers 1 when every hash function selects a set flag, and 0 as soon as
one selects an unset flag after functions that all selected set flags, without evaluating the later ones; either way
the whole state is left. -/
def Obligations.QueryAnswersWhetherEveryFlagIsSet : Prop :=
  ∀ (s : State) (d : Digest), s.Inv → s.active = true → s.fault = false →
    ((∀ k, k < s.hashCount.toNat → ∃ p, eval s k d = .value p ∧ s.flag p = true) →
      exec (.query d) s = .next { s with rsps := s.rsps ++ [Response.word ⟨.ok, 0x22, 1⟩] }) ∧
    (∀ k p, k < s.hashCount.toNat → (∀ j, j < k → ∃ q, eval s j d = .value q ∧ s.flag q = true) →
      eval s k d = .value p → s.flag p = false →
      exec (.query d) s = .next { s with rsps := s.rsps ++ [Response.word ⟨.ok, 0x22, 0⟩] })

/-- 60_exceptions.md R180: E_TABLE is raised by HASHEVAL, INSERT and QUERY exactly when Eval reads a stored index of
160 or more; the engine sets `fault`, saves the offset of the offending table byte, changes nothing else, and answers
status E_TABLE, `rop` the command's op and data 0. -/
def Obligations.TableFaultIsTakenExactlyWhen : Prop :=
  ∀ (s : State) (d : Digest) (off : Nat), s.Inv → s.active = true → s.fault = false →
    (∀ k : U64, k.toNat < s.hashCount.toNat →
      (exec (.hasheval k d) s = .next
        { s with fault := true, faultAddr := BitVec.ofNat 64 off,
                 rsps := s.rsps ++ [Response.word ⟨.eTable, 0x20, 0⟩] } ∧ off < s.tableBytes ↔
        eval s k.toNat d = .tableFault off)) ∧
    (exec (.insert d) s = .next
        { s with fault := true, faultAddr := BitVec.ofNat 64 off,
                 rsps := s.rsps ++ [Response.word ⟨.eTable, 0x21, 0⟩] } ∧ off < s.tableBytes ↔
      ∃ k, k < s.hashCount.toNat ∧ eval s k d = .tableFault off ∧ ∀ j, j < k → ∃ p, eval s j d = .value p) ∧
    (exec (.query d) s = .next
        { s with fault := true, faultAddr := BitVec.ofNat 64 off,
                 rsps := s.rsps ++ [Response.word ⟨.eTable, 0x22, 0⟩] } ∧ off < s.tableBytes ↔
      ∃ k, k < s.hashCount.toNat ∧ eval s k d = .tableFault off ∧
        ∀ j, j < k → ∃ p, eval s j d = .value p ∧ s.flag p = true)

/-- 43_engine.md section 1, 60_exceptions.md section 5: whichever command takes the table fault, it is one of the three
that evaluate, `fault_addr` names a table byte of 160 or more, and no table byte the command examined before it is one:
for INSERT and QUERY no lower offset, for HASHEVAL no lower offset of the run of its function. -/
def Obligations.FaultAddressIsTheLowestExamined : Prop :=
  ∀ (i : Instr) (s t : State), s.Inv → exec i s = .next t → s.fault = false → t.fault = true →
    (∃ b, s.memRead t.faultAddr.toNat = some b ∧ 160 ≤ b.toNat) ∧ t.faultAddr.toNat < s.tableBytes ∧
    ((∃ k d, i = .hasheval k d ∧
        k.toNat * s.log2Bits.toNat ≤ t.faultAddr.toNat ∧
        t.faultAddr.toNat < k.toNat * s.log2Bits.toNat + s.log2Bits.toNat ∧
        ∀ off b, k.toNat * s.log2Bits.toNat ≤ off → off < t.faultAddr.toNat → s.memRead off = some b →
          b.toNat < 160) ∨
     ((∃ d, i = .insert d ∨ i = .query d) ∧
        ∀ off b, off < t.faultAddr.toNat → s.memRead off = some b → b.toNat < 160))

/-- 60_exceptions.md R184: FAULT is left only by SRESET and by hardware reset, both of which give EMPTY; any other
command answered in FAULT leaves `fault`, `fault_addr` and the whole state: faults do not nest. -/
def Obligations.OnlyResetLeavesFault : Prop :=
  (∀ (i : Instr) (s t : State), s.fault = true → exec i s = .next t →
    (i = .sreset ∧ t.lifecycle = some .empty) ∨ (i ≠ .sreset ∧ t = { s with rsps := t.rsps })) ∧
  (∀ s : State, ∃ t, exec .sreset s = .next t ∧ t.lifecycle = some .empty) ∧
  (∀ p, (State.hardReset p).lifecycle = some .empty)

/-- 10_state.md R24: the two flags name one of EMPTY, ACTIVE and FAULT, never the fourth combination; CONFIG that ends
OK goes from EMPTY to ACTIVE, RELEASE that ends OK from ACTIVE to EMPTY, a table fault in HASHEVAL, INSERT or QUERY from
ACTIVE to FAULT, SRESET and hardware reset to EMPTY, and every other command in every other state leaves it. -/
def Obligations.LifecycleTransitionsAreTheSpecs : Prop :=
  (∀ s : State, s.Inv →
    (s.lifecycle = some .empty ∧ s.active = false ∧ s.fault = false) ∨
    (s.lifecycle = some .active ∧ s.active = true ∧ s.fault = false) ∨
    (s.lifecycle = some .fault ∧ s.active = true ∧ s.fault = true)) ∧
  (∀ (i : Instr) (s t : State) (e : Status) (data : U64), s.Inv → exec i s = .next t →
    t.rsps = s.rsps ++ [Response.word ⟨e, i.opcode, data⟩] →
    match i with
    | .config _ _ =>
      if e = .ok then s.lifecycle = some .empty ∧ t.lifecycle = some .active else t.lifecycle = s.lifecycle
    | .release =>
      if e = .ok then s.lifecycle = some .active ∧ t.lifecycle = some .empty else t.lifecycle = s.lifecycle
    | .sreset => t.lifecycle = some .empty
    | .hasheval _ _ =>
      if e = .eTable then s.lifecycle = some .active ∧ t.lifecycle = some .fault else t.lifecycle = s.lifecycle
    | .insert _ =>
      if e = .eTable then s.lifecycle = some .active ∧ t.lifecycle = some .fault else t.lifecycle = s.lifecycle
    | .query _ =>
      if e = .eTable then s.lifecycle = some .active ∧ t.lifecycle = some .fault else t.lifecycle = s.lifecycle
    | .validate _ _ => t.lifecycle = s.lifecycle
    | .rdreg _ => t.lifecycle = s.lifecycle
    | .bufrd _ => t.lifecycle = s.lifecycle
    | .bufwr _ _ => t.lifecycle = s.lifecycle) ∧
  ∀ p, (State.hardReset p).lifecycle = some .empty

/-- 20_memory.md section 6: VALIDATE, RDREG and BUFRD never change the state, and HASHEVAL and QUERY do not when they
end OK: every register and every byte is as before. -/
def Obligations.ReadOnlyCommandsKeepTheState : Prop :=
  ∀ (i : Instr) (s t : State), exec i s = .next t →
    (match i with
     | .validate _ _ => True
     | .rdreg _ => True
     | .bufrd _ => True
     | .hasheval _ _ => ∃ data, t.rsps = s.rsps ++ [Response.word ⟨.ok, i.opcode, data⟩]
     | .query _ => ∃ data, t.rsps = s.rsps ++ [Response.word ⟨.ok, i.opcode, data⟩]
     | .config _ _ => False
     | .release => False
     | .sreset => False
     | .bufwr _ _ => False
     | .insert _ => False) →
    t = { s with rsps := t.rsps }

/-- 00_scope.md section 5, 30_encoding.md section 1: no step changes the parameters, and a step that takes a command
word hands over exactly one response word, after those before it. That a step with no word offered leaves the whole state
is the model's choice (log entry 3, on 60_exceptions.md section 6). -/
def Obligations.OneResponsePerCommandAndParametersFixed : Prop :=
  ∀ s t : State, step s = .next t →
    t.params = s.params ∧
    (s.cmds = [] ∧ t = s ∨ ∃ w r, s.cmds = w :: t.cmds ∧ t.rsps = s.rsps ++ [r] ∧ r.extractLsb' 64 8 = opField w)

/-! ### The whole machine -/

/-- 10_state.md R29: the invariants of the state, with the model's own on its parameters and its memory, are kept by
every step from every state that meets them, and hold after reset with any legal parameters. -/
def Obligations.StepKeepsTheInvariant : Prop :=
  (∀ s t : State, s.Inv → step s = .next t → t.Inv) ∧ ∀ p, ParamsLegal p → (State.hardReset p).Inv

/-- 10_state.md sections 3 and 8: `State.reset` is hardware reset of the spec's reference instance (the model's choice of
instance, log entry 1), and it meets the invariants. -/
def Obligations.ResetMeetsTheInvariant : Prop :=
  State.reset = State.hardReset Config.reference ∧ State.reset.Inv

/-- 70_reset_and_hazards.md sections 1 and 4: from every state that meets the invariants, whatever word is offered, a
step yields a next state; and when a word was offered, exactly one response. The model's stop at a missing byte (log
entry 6) is never met. -/
def Obligations.EveryCommandIsAnswered : Prop :=
  ∀ s : State, s.Inv → ∃ t, step s = .next t ∧
    ∀ w rest, s.cmds = w :: rest → t.cmds = rest ∧ ∃ r, t.rsps = s.rsps ++ [r]

/-- 43_engine.md section 4: a step that runs no BUFWR, RELEASE, CONFIG or SRESET keeps a digest present: every hash
function still evaluates for it and still selects a set flag. -/
def Obligations.StepKeepsDigestsPresent : Prop :=
  ∀ (s t : State) (d : Digest), s.Inv → s.active = true → s.fault = false → s.Present d → step s = .next t →
    (∀ w i, s.cmds.head? = some w → decode w = .ok i → voidsInserts i = false) →
    t.active = true ∧ t.fault = false ∧ t.Present d

/-- 43_engine.md R155: no false negatives. After an INSERT of `d` that ended OK, however many commands follow, as long
as none is BUFWR, RELEASE, CONFIG or SRESET, a QUERY of `d` answers 1; in particular it is not refused and meets no
table fault. -/
def Obligations.NoFalseNegatives : Prop :=
  ∀ (s t u : State) (d : Digest) (n : Nat), s.Inv → exec (.insert d) s = .next t →
    t.rsps = s.rsps ++ [Response.word ⟨.ok, 0x21, 0⟩] →
    (∀ w ∈ t.cmds.take n, ∀ i, decode w = .ok i → voidsInserts i = false) →
    core.run n t = .next u →
    exec (.query d) u = .next { u with rsps := u.rsps ++ [Response.word ⟨.ok, 0x22, 1⟩] }

/-- 42_buffer.md R143: the bytes BUFRD answers at offsets 0 to BUF_BYTES - 1 are the buffer; sent to an EMPTY engine by
CONFIG with the same sizes and BUFWR of every byte, they make a filter with the same buffer, byte for byte, that answers
every HASHEVAL and every QUERY exactly as the old one does. -/
def Obligations.SaveAndRestoreRoundTrip : Prop :=
  ∀ (s e : State) (bytes : List Byte), s.Inv → s.active = true → s.fault = false →
    e.Inv → e.active = false → e.params = s.params →
    bytes.length = s.bufBytes →
    (∀ off, off < s.bufBytes → ∃ b, bytes[off]? = some b ∧
      exec (.bufrd (BitVec.ofNat 64 off)) s =
        .next { s with rsps := s.rsps ++ [Response.word ⟨.ok, 0x10, b.setWidth 64⟩] }) →
    ∃ u, execAll (restoreCommands s.hashCount s.log2Bits bytes) e = .next u ∧
      u = { s with cmds := e.cmds, rsps := u.rsps } ∧
      (∀ k d, answerOf (exec (.hasheval k d) u) = answerOf (exec (.hasheval k d) s)) ∧
      (∀ d, answerOf (exec (.query d) u) = answerOf (exec (.query d) s))

/-- 43_engine.md R156: whatever the degree of parallelism, the response and the state after HASHEVAL, INSERT and QUERY
equal those of the sequential pseudocode. -/
def Obligations.ParallelLookupEqualsSequential : Prop :=
  ∀ s : State, 1 ≤ s.params.lanes →
    (∀ k d, execHashevalLanes k d s = exec (.hasheval k d) s) ∧
    (∀ d, execInsertLanes d s = exec (.insert d) s) ∧
    (∀ d, execQueryLanes d s = exec (.query d) s)

/-- 43_engine.md section 4: LANES is not architectural: a step with any other number of lanes gives the same next state
but for that number, or the same stop. -/
def Obligations.LanesAreNotArchitectural : Prop :=
  ∀ (s : State) (n : Nat),
    let withLanes := fun (t : State) => { t with params := { t.params with lanes := n } }
    step (withLanes s) =
      match step s with
      | .next t => .next (withLanes t)
      | .fault f => .fault f
      | .refused r => .refused r

/-- 93_implementation_defined.md U4: no response depends on a byte whose contents are unspecified. Two states that
differ only in what the memory lists, and agree on every byte of the buffer, step alike: to states that again differ
only so, with the same responses, or to the same stop. -/
def Obligations.UnspecifiedBytesAreUnobservable : Prop :=
  ∀ (s : State) (m : List Host.Cell), Memory.wf s.mem = true → Memory.wf m = true →
    (∀ off, ({ s with mem := m } : State).memRead off = s.memRead off) →
    match step s, step { s with mem := m } with
    | .next t, .next t' => t' = { t with mem := t'.mem } ∧ Memory.wf t.mem = true ∧ Memory.wf t'.mem = true ∧
        ∀ off, t'.memRead off = t.memRead off
    | .fault f, .fault f' => f = f'
    | .refused r, .refused r' => r = r'
    | _, _ => False
end

