-- ==== Sys2Proof/Laws/Assembler.lean ====
section
/-! SUPPORT. What the assembler makes of operands that are numbers (30_encoding.md R98, R99). -/

namespace Sys2Proof.Machine

theorem fitField_natCast (w n : Nat) :
    fitField w (n : Int) = if n < 2 ^ w then some (BitVec.ofNat w n) else none := by
  unfold fitField
  by_cases h : n < 2 ^ w
  · rw [if_pos h, if_pos ⟨by omega, by exact_mod_cast h⟩]; simp
  · rw [if_neg h, if_neg]; rintro ⟨_, h2⟩; exact h (by exact_mod_cast h2)

theorem asmOperand_num (env : AsmEnv) (x w : Nat) :
    asmOperand env w (.num x) = if x < 2 ^ w then some (BitVec.ofNat w x) else none := by
  rw [← fitField_natCast]; rfl

theorem asmOperand_tableOffset (env : AsmEnv) (L k i w : Nat) (hL : env.lookup "L" = some (L : Int)) :
    asmOperand env w (asmTableOffset (.num k) (.num i)) =
      if k * L + i < 2 ^ w then some (BitVec.ofNat w (k * L + i)) else none := by
  rw [← fitField_natCast]
  have hv : (asmTableOffset (.num k) (.num i)).value env = some ((k * L + i : Nat) : Int) := by
    simp [asmTableOffset, AsmExpr.value, hL]
  unfold asmOperand
  rw [hv]
  rfl

end Sys2Proof.Machine
end

