-- ==== Sys2Proof/Laws/Decode.lean ====
section
/-! SUPPORT. The fields of a packed command word, and a word as its fields. -/

namespace Sys2Proof

/-- A packed word gives its fields back, and its `z` is 0. -/
theorem opField_pack (op b : Byte) (a : U64) (d : Digest) : opField (packFields op b a d) = op := by
  unfold opField packFields
  rw [BitVec.extractLsb'_append_eq_of_le (by norm_num), BitVec.extractLsb'_append_eq_of_le (by norm_num),
    BitVec.extractLsb'_append_eq_of_le (by norm_num), BitVec.extractLsb'_append_eq_of_le (by norm_num)]
  exact BitVec.extractLsb'_eq_self

theorem bField_pack (op b : Byte) (a : U64) (d : Digest) : bField (packFields op b a d) = b := by
  unfold bField packFields
  rw [BitVec.extractLsb'_append_eq_of_le (by norm_num), BitVec.extractLsb'_append_eq_of_le (by norm_num),
    BitVec.extractLsb'_append_eq_of_le (by norm_num), BitVec.extractLsb'_append_eq_of_add_le (by norm_num)]
  exact BitVec.extractLsb'_eq_self

theorem zField_pack (op b : Byte) (a : U64) (d : Digest) : zField (packFields op b a d) = 0#16 := by
  unfold zField packFields
  rw [BitVec.extractLsb'_append_eq_of_le (by norm_num), BitVec.extractLsb'_append_eq_of_le (by norm_num),
    BitVec.extractLsb'_append_eq_of_add_le (by norm_num)]
  exact BitVec.extractLsb'_eq_self

theorem aField_pack (op b : Byte) (a : U64) (d : Digest) : aField (packFields op b a d) = a := by
  unfold aField packFields
  rw [BitVec.extractLsb'_append_eq_of_le (by norm_num), BitVec.extractLsb'_append_eq_of_add_le (by norm_num)]
  exact BitVec.extractLsb'_eq_self

theorem dField_pack (op b : Byte) (a : U64) (d : Digest) : dField (packFields op b a d) = d := by
  unfold dField packFields
  rw [BitVec.extractLsb'_append_eq_of_add_le (by norm_num)]
  exact BitVec.extractLsb'_eq_self

/-- A word is its five fields. -/
theorem word_eq_fields (w : CmdWord) : w = opField w ++ bField w ++ zField w ++ aField w ++ dField w := by
  unfold opField bField zField aField dField
  rw [BitVec.extractLsb'_append_extractLsb'_eq_extractLsb' (by norm_num),
    BitVec.extractLsb'_append_extractLsb'_eq_extractLsb' (by norm_num),
    BitVec.extractLsb'_append_extractLsb'_eq_extractLsb' (by norm_num),
    BitVec.extractLsb'_append_extractLsb'_eq_extractLsb' (by norm_num)]
  exact BitVec.extractLsb'_eq_self.symm

/-- A word with `z = 0` is its other four fields, packed. -/
theorem packFields_fields {w : CmdWord} (hz : zField w = 0#16) :
    packFields (opField w) (bField w) (aField w) (dField w) = w := by
  conv_rhs => rw [word_eq_fields w, hz]
  rfl

/-! ### What the decoder accepts -/

theorem unlessUnused_eq_ok {op : Byte} {u : Bool} {i j : Instr} :
    unlessUnused op u i = .ok j ↔ u = true ∧ i = j := by
  unfold unlessUnused
  cases u <;> simp

theorem decodeRdreg_eq_ok {b : Byte} {u : Bool} {j : Instr} :
    decodeRdreg b u = .ok j ↔ b ≤ 0x09#8 ∧ u = true ∧ .rdreg b = j := by
  unfold decodeRdreg
  split
  · next h => rw [unlessUnused_eq_ok]; simp [h]
  · next h => simp [h]

/-- The decoder's answer, opcode by opcode (30_encoding.md R89): the command, its operands, and the fields that must
be zero. -/
theorem decode_eq_ok {w : CmdWord} {i : Instr} (h : decode w = .ok i) :
    zField w = 0#16 ∧ opField w = i.opcode ∧
    (match i with
     | .validate hc l2 => hc = aField w ∧ l2 = bField w ∧ dField w = 0#160
     | .config hc l2 => hc = aField w ∧ l2 = bField w ∧ dField w = 0#160
     | .release => bField w = 0#8 ∧ aField w = 0#64 ∧ dField w = 0#160
     | .rdreg n => n = bField w ∧ n ≤ 0x09#8 ∧ aField w = 0#64 ∧ dField w = 0#160
     | .sreset => bField w = 0#8 ∧ aField w = 0#64 ∧ dField w = 0#160
     | .bufrd off => off = aField w ∧ bField w = 0#8 ∧ dField w = 0#160
     | .bufwr off byte => off = aField w ∧ byte = bField w ∧ dField w = 0#160
     | .hasheval k dg => k = aField w ∧ dg = dField w ∧ bField w = 0#8
     | .insert dg => dg = dField w ∧ bField w = 0#8 ∧ aField w = 0#64
     | .query dg => dg = dField w ∧ bField w = 0#8 ∧ aField w = 0#64) := by
  by_cases hz : zField w = 0#16
  case neg => simp [decode, hz] at h
  refine ⟨hz, ?_⟩
  unfold decode at h
  simp only [hz, ne_eq, not_true_eq_false, if_false] at h
  by_cases h1 : opField w = 0x01#8
  · rw [if_pos h1] at h
    obtain ⟨hu, rfl⟩ := unlessUnused_eq_ok.1 h
    simpa [h1, Instr.opcode] using hu
  rw [if_neg h1] at h
  by_cases h2 : opField w = 0x02#8
  · rw [if_pos h2] at h
    obtain ⟨hu, rfl⟩ := unlessUnused_eq_ok.1 h
    simpa [h2, Instr.opcode] using hu
  rw [if_neg h2] at h
  by_cases h3 : opField w = 0x03#8
  · rw [if_pos h3] at h
    obtain ⟨hu, rfl⟩ := unlessUnused_eq_ok.1 h
    simpa [h3, Instr.opcode, and_assoc] using hu
  rw [if_neg h3] at h
  by_cases h4 : opField w = 0x04#8
  · rw [if_pos h4] at h
    obtain ⟨hb, hu, rfl⟩ := decodeRdreg_eq_ok.1 h
    simpa [h4, Instr.opcode, hb] using hu
  rw [if_neg h4] at h
  by_cases h5 : opField w = 0x05#8
  · rw [if_pos h5] at h
    obtain ⟨hu, rfl⟩ := unlessUnused_eq_ok.1 h
    simpa [h5, Instr.opcode, and_assoc] using hu
  rw [if_neg h5] at h
  by_cases h6 : opField w = 0x10#8
  · rw [if_pos h6] at h
    obtain ⟨hu, rfl⟩ := unlessUnused_eq_ok.1 h
    simpa [h6, Instr.opcode] using hu
  rw [if_neg h6] at h
  by_cases h7 : opField w = 0x11#8
  · rw [if_pos h7] at h
    obtain ⟨hu, rfl⟩ := unlessUnused_eq_ok.1 h
    simpa [h7, Instr.opcode] using hu
  rw [if_neg h7] at h
  by_cases h8 : opField w = 0x20#8
  · rw [if_pos h8] at h
    obtain ⟨hu, rfl⟩ := unlessUnused_eq_ok.1 h
    simpa [h8, Instr.opcode] using hu
  rw [if_neg h8] at h
  by_cases h9 : opField w = 0x21#8
  · rw [if_pos h9] at h
    obtain ⟨hu, rfl⟩ := unlessUnused_eq_ok.1 h
    simpa [h9, Instr.opcode] using hu
  rw [if_neg h9] at h
  by_cases h10 : opField w = 0x22#8
  · rw [if_pos h10] at h
    obtain ⟨hu, rfl⟩ := unlessUnused_eq_ok.1 h
    simpa [h10, Instr.opcode] using hu
  rw [if_neg h10] at h
  cases h

/-! ### A row of the opcode table, field by field -/

/-- Two words are equal exactly when their parts are. -/
theorem append_inj {n m : Nat} {x x' : BitVec n} {y y' : BitVec m} : x ++ y = x' ++ y' ↔ x = x' ∧ y = y' := by
  constructor
  · intro h
    constructor
    · have h1 := congrArg (BitVec.extractLsb' m n) h
      rwa [BitVec.extractLsb'_append_eq_of_le le_rfl, BitVec.extractLsb'_append_eq_of_le le_rfl, Nat.sub_self,
        BitVec.extractLsb'_eq_self, BitVec.extractLsb'_eq_self] at h1
    · have h1 := congrArg (BitVec.extractLsb' 0 m) h
      rwa [BitVec.extractLsb'_append_eq_of_add_le (by omega), BitVec.extractLsb'_append_eq_of_add_le (by omega),
        BitVec.extractLsb'_eq_self, BitVec.extractLsb'_eq_self] at h1
  · rintro ⟨rfl, rfl⟩; rfl

/-- Masking a word masks each of its fields. -/
theorem and_fields (o b : Byte) (z : BitVec 16) (a : U64) (d : Digest) (o' b' : Byte) (z' : BitVec 16) (a' : U64)
    (d' : Digest) :
    ((o ++ b ++ z ++ a ++ d : CmdWord) &&& (o' ++ b' ++ z' ++ a' ++ d' : CmdWord)) =
      ((o &&& o') ++ (b &&& b') ++ (z &&& z') ++ (a &&& a') ++ (d &&& d') : CmdWord) := by
  simp only [← BitVec.and_append]

/-- A row matches a word exactly when it does in each of the five fields. -/
theorem OpcodeRow.matches_iff (w : CmdWord) (r : OpcodeRow) :
    r.matches w = true ↔
      opField w &&& opField r.mask = opField r.pattern ∧ bField w &&& bField r.mask = bField r.pattern ∧
      zField w &&& zField r.mask = zField r.pattern ∧ aField w &&& aField r.mask = aField r.pattern ∧
      dField w &&& dField r.mask = dField r.pattern := by
  unfold OpcodeRow.matches
  rw [beq_iff_eq]
  conv_lhs => rw [word_eq_fields w, word_eq_fields r.mask, word_eq_fields r.pattern]
  rw [and_fields, append_inj, append_inj, append_inj, append_inj]
  simp only [and_assoc]

/-! ### Bytes of a word -/

theorem natOfBytes_append (a b : List Byte) :
    natOfBytes (a ++ b) = natOfBytes a + 256 ^ a.length * natOfBytes b := by
  induction a with
  | nil => simp [natOfBytes]
  | cons x xs ih => simp only [List.cons_append, natOfBytes, ih, List.length_cons, pow_succ]; ring

/-- Byte `k` of a word as a number. -/
theorem toNat_byte {m : Nat} (w : BitVec m) (k : Nat) :
    (w.extractLsb' (8 * k) 8).toNat = w.toNat / 256 ^ k % 256 := by
  rw [BitVec.extractLsb'_toNat, Nat.shiftRight_eq_div_pow, pow_mul]; norm_num

/-- The bytes `k` to `k + l - 1` of a word, as a number. -/
theorem natOfBytes_slice {m : Nat} (w : BitVec m) (n k l : Nat) (h : k + l ≤ n) :
    natOfBytes (((bytesOf w n).drop k).take l) = w.toNat / 256 ^ k % 256 ^ l := by
  have hslice : ((bytesOf w n).drop k).take l = (List.range l).map fun j => w.extractLsb' (8 * (k + j)) 8 := by
    apply List.ext_getElem
    · simp [bytesOf]; omega
    · intro i h1 h2; simp [bytesOf]
  rw [hslice]
  clear hslice h
  induction l with
  | zero => simp [natOfBytes, Nat.mod_one]
  | succ l ih =>
    rw [List.range_succ, List.map_append, natOfBytes_append, ih]
    simp only [List.map_cons, List.map_nil, natOfBytes, List.length_map, List.length_range, toNat_byte]
    rw [pow_add, ← Nat.div_div_eq_div_mul, pow_succ, Nat.mod_mul]; ring

end Sys2Proof
end

