-- ==== Sys2Proof/Laws/State.lean ====
section
/-! SUPPORT. One lemma per field for each named update of State, so that no proof unfolds a record update. -/

namespace Sys2Proof.Machine

/-! ### State.push -/

@[simp] theorem State.push_params (s : State) (r : Response) : (s.push r).params = s.params := rfl
@[simp] theorem State.push_active (s : State) (r : Response) : (s.push r).active = s.active := rfl
@[simp] theorem State.push_fault (s : State) (r : Response) : (s.push r).fault = s.fault := rfl
@[simp] theorem State.push_hashCount (s : State) (r : Response) : (s.push r).hashCount = s.hashCount := rfl
@[simp] theorem State.push_log2Bits (s : State) (r : Response) : (s.push r).log2Bits = s.log2Bits := rfl
@[simp] theorem State.push_faultAddr (s : State) (r : Response) : (s.push r).faultAddr = s.faultAddr := rfl
@[simp] theorem State.push_mem (s : State) (r : Response) : (s.push r).mem = s.mem := rfl
@[simp] theorem State.push_cmds (s : State) (r : Response) : (s.push r).cmds = s.cmds := rfl
@[simp] theorem State.push_rsps (s : State) (r : Response) : (s.push r).rsps = s.rsps ++ [r.word] := rfl

/-! ### State.clear -/

@[simp] theorem State.clear_params (s : State) : s.clear.params = s.params := rfl
@[simp] theorem State.clear_active (s : State) : s.clear.active = false := rfl
@[simp] theorem State.clear_fault (s : State) : s.clear.fault = false := rfl
@[simp] theorem State.clear_hashCount (s : State) : s.clear.hashCount = 0 := rfl
@[simp] theorem State.clear_log2Bits (s : State) : s.clear.log2Bits = 0 := rfl
@[simp] theorem State.clear_faultAddr (s : State) : s.clear.faultAddr = 0 := rfl
@[simp] theorem State.clear_mem (s : State) : s.clear.mem = [] := rfl
@[simp] theorem State.clear_cmds (s : State) : s.clear.cmds = s.cmds := rfl
@[simp] theorem State.clear_rsps (s : State) : s.clear.rsps = s.rsps := rfl

/-! ### State.configured -/

@[simp] theorem State.configured_params (s : State) (hc : U64) (l2 : Byte) (size : Nat) : (s.configured hc l2 size).params = s.params := rfl
@[simp] theorem State.configured_active (s : State) (hc : U64) (l2 : Byte) (size : Nat) : (s.configured hc l2 size).active = true := rfl
@[simp] theorem State.configured_fault (s : State) (hc : U64) (l2 : Byte) (size : Nat) : (s.configured hc l2 size).fault = s.fault := rfl
@[simp] theorem State.configured_hashCount (s : State) (hc : U64) (l2 : Byte) (size : Nat) : (s.configured hc l2 size).hashCount = hc := rfl
@[simp] theorem State.configured_log2Bits (s : State) (hc : U64) (l2 : Byte) (size : Nat) : (s.configured hc l2 size).log2Bits = l2 := rfl
@[simp] theorem State.configured_faultAddr (s : State) (hc : U64) (l2 : Byte) (size : Nat) : (s.configured hc l2 size).faultAddr = s.faultAddr := rfl
@[simp] theorem State.configured_mem (s : State) (hc : U64) (l2 : Byte) (size : Nat) : (s.configured hc l2 size).mem = Memory.zeroBelow size s.mem := rfl
@[simp] theorem State.configured_cmds (s : State) (hc : U64) (l2 : Byte) (size : Nat) : (s.configured hc l2 size).cmds = s.cmds := rfl
@[simp] theorem State.configured_rsps (s : State) (hc : U64) (l2 : Byte) (size : Nat) : (s.configured hc l2 size).rsps = s.rsps := rfl

/-! ### State.released -/

@[simp] theorem State.released_params (s : State) : s.released.params = s.params := rfl
@[simp] theorem State.released_active (s : State) : s.released.active = false := rfl
@[simp] theorem State.released_fault (s : State) : s.released.fault = s.fault := rfl
@[simp] theorem State.released_hashCount (s : State) : s.released.hashCount = 0 := rfl
@[simp] theorem State.released_log2Bits (s : State) : s.released.log2Bits = 0 := rfl
@[simp] theorem State.released_faultAddr (s : State) : s.released.faultAddr = s.faultAddr := rfl
@[simp] theorem State.released_mem (s : State) : s.released.mem = [] := rfl
@[simp] theorem State.released_cmds (s : State) : s.released.cmds = s.cmds := rfl
@[simp] theorem State.released_rsps (s : State) : s.released.rsps = s.rsps := rfl

/-! ### State.faultedAt -/

@[simp] theorem State.faultedAt_params (s : State) (off : Nat) : (s.faultedAt off).params = s.params := rfl
@[simp] theorem State.faultedAt_active (s : State) (off : Nat) : (s.faultedAt off).active = s.active := rfl
@[simp] theorem State.faultedAt_fault (s : State) (off : Nat) : (s.faultedAt off).fault = true := rfl
@[simp] theorem State.faultedAt_hashCount (s : State) (off : Nat) : (s.faultedAt off).hashCount = s.hashCount := rfl
@[simp] theorem State.faultedAt_log2Bits (s : State) (off : Nat) : (s.faultedAt off).log2Bits = s.log2Bits := rfl
@[simp] theorem State.faultedAt_faultAddr (s : State) (off : Nat) : (s.faultedAt off).faultAddr = BitVec.ofNat 64 off := rfl
@[simp] theorem State.faultedAt_mem (s : State) (off : Nat) : (s.faultedAt off).mem = s.mem := rfl
@[simp] theorem State.faultedAt_cmds (s : State) (off : Nat) : (s.faultedAt off).cmds = s.cmds := rfl
@[simp] theorem State.faultedAt_rsps (s : State) (off : Nat) : (s.faultedAt off).rsps = s.rsps := rfl

@[simp] theorem State.push_tableBytes (s : State) (r : Response) : (s.push r).tableBytes = s.tableBytes := rfl
@[simp] theorem State.faultedAt_tableBytes (s : State) (off : Nat) : (s.faultedAt off).tableBytes = s.tableBytes := rfl
@[simp] theorem State.push_bvBytes (s : State) (r : Response) : (s.push r).bvBytes = s.bvBytes := rfl
@[simp] theorem State.faultedAt_bvBytes (s : State) (off : Nat) : (s.faultedAt off).bvBytes = s.bvBytes := rfl
@[simp] theorem State.push_bufBytes (s : State) (r : Response) : (s.push r).bufBytes = s.bufBytes := rfl
@[simp] theorem State.faultedAt_bufBytes (s : State) (off : Nat) : (s.faultedAt off).bufBytes = s.bufBytes := rfl
@[simp] theorem State.push_bitCount (s : State) (r : Response) : (s.push r).bitCount = s.bitCount := rfl
@[simp] theorem State.faultedAt_bitCount (s : State) (off : Nat) : (s.faultedAt off).bitCount = s.bitCount := rfl
@[simp] theorem State.push_inBuffer (s : State) (r : Response) (off : Nat) : (s.push r).inBuffer off = s.inBuffer off := rfl
@[simp] theorem State.faultedAt_inBuffer (s : State) (n off : Nat) : (s.faultedAt n).inBuffer off = s.inBuffer off := rfl
@[simp] theorem State.push_memRead (s : State) (r : Response) (off : Nat) : (s.push r).memRead off = s.memRead off := rfl
@[simp] theorem State.faultedAt_memRead (s : State) (n off : Nat) : (s.faultedAt n).memRead off = s.memRead off := rfl

/-- The state after reset is the hardware reset of the reference instance. -/
theorem State.reset_eq_hardReset : State.reset = State.hardReset Config.reference := rfl

end Sys2Proof.Machine
end

