-- ==== Sys2Proof/Laws/Memory.lean ====
section
/-! SUPPORT. The laws of the buffer memory as a list of cells: read after write, that every operation keeps the
canonical form, and that the canonical form is one list per contents. -/

namespace Sys2Proof.Machine

@[simp] theorem Memory.read_nil (a : Nat) : Memory.read [] a = Memory.unlisted := rfl

theorem Memory.read_cons (c : Host.Cell) (cs : List Host.Cell) (a : Nat) :
    Memory.read (c :: cs) a = if c.1 = a then c.2 else Memory.read cs a := rfl

/-- An offset that no cell names reads as an unlisted one. -/
theorem Memory.read_unlisted {cs : List Host.Cell} {a : Nat} (h : ∀ c ∈ cs, c.1 ≠ a) :
    Memory.read cs a = Memory.unlisted := by
  induction cs with
  | nil => rfl
  | cons c cs ih =>
    rw [Memory.read_cons, if_neg (h c (by simp)), ih fun x hx => h x (by simp [hx])]

/-- The canonical form, cell by cell. -/
theorem Memory.wf_cons {c : Host.Cell} {cs : List Host.Cell} :
    Memory.wf (c :: cs) = true ↔ c.2 ≠ Memory.unlisted ∧ (∀ x ∈ cs, c.1 < x.1) ∧ Memory.wf cs = true := by
  simp [Memory.wf, and_assoc]

@[simp] theorem Memory.wf_nil : Memory.wf [] = true := rfl

/-- In a canonical list nothing is listed at or below an offset that lies below the first cell. -/
theorem Memory.read_below {c : Host.Cell} {cs : List Host.Cell} {a : Nat} (h : ∀ x ∈ cs, c.1 < x.1) (ha : a ≤ c.1) :
    Memory.read cs a = Memory.unlisted :=
  Memory.read_unlisted fun x hx => by have := h x hx; omega

theorem Memory.read_putCell {cs : List Host.Cell} {a b : Nat} {v : Byte}
    (h : Memory.read cs a = Memory.unlisted) :
    Memory.read (Memory.cons a v cs) b = if b = a then v else Memory.read cs b := by
  unfold Memory.cons
  by_cases hv : v = Memory.unlisted
  · rw [if_pos hv]
    split
    · subst b; rw [h, hv]
    · rfl
  · rw [if_neg hv, Memory.read_cons]
    by_cases hb : b = a
    · simp [hb]
    · rw [if_neg (Ne.symm hb), if_neg hb]

/-- Read after write, at every offset. -/
theorem Memory.read_write {cs : List Host.Cell} (h : Memory.wf cs = true) (a b : Nat) (v : Byte) :
    Memory.read (Memory.write cs a v) b = if b = a then v else Memory.read cs b := by
  induction cs with
  | nil => exact Memory.read_putCell rfl
  | cons c cs ih =>
    obtain ⟨hv, hlt, hcs⟩ := Memory.wf_cons.1 h
    unfold Memory.write
    by_cases h1 : a < c.1
    · rw [if_pos h1]
      refine Memory.read_putCell (Memory.read_unlisted fun x hx => ?_)
      rcases List.mem_cons.1 hx with rfl | hx
      · omega
      · have := hlt x hx; omega
    · rw [if_neg h1]
      by_cases h2 : a = c.1
      · rw [if_pos h2, Memory.read_putCell (Memory.read_below hlt (by omega)), Memory.read_cons]
        by_cases hb : b = a
        · simp [hb]
        · rw [if_neg hb, if_neg hb, if_neg (by omega)]
      · rw [if_neg h2, Memory.read_cons, Memory.read_cons, ih hcs]
        by_cases hb : c.1 = b
        · rw [if_pos hb, if_neg (by omega), if_pos hb]
        · rw [if_neg hb, if_neg hb]

/-- Every cell of a written list is an old one or the written one. -/
theorem Memory.mem_write {cs : List Host.Cell} {a : Nat} {v : Byte} {x : Host.Cell}
    (h : x ∈ Memory.write cs a v) : x.1 = a ∨ x ∈ cs := by
  have put : ∀ {l : List Host.Cell}, x ∈ Memory.cons a v l → x.1 = a ∨ x ∈ l := by
    intro l hl
    unfold Memory.cons at hl
    split at hl
    · exact .inr hl
    · rcases List.mem_cons.1 hl with rfl | hl
      · exact .inl rfl
      · exact .inr hl
  induction cs with
  | nil => exact put h
  | cons c cs ih =>
    unfold Memory.write at h
    split at h
    · exact put h
    · split at h
      · rcases put h with h | h
        · exact .inl h
        · exact .inr (List.mem_cons_of_mem _ h)
      · rcases List.mem_cons.1 h with rfl | h
        · exact .inr (by simp)
        · rcases ih h with h | h
          · exact .inl h
          · exact .inr (List.mem_cons_of_mem _ h)

theorem Memory.wf_putCell {cs : List Host.Cell} {a : Nat} {v : Byte} (h : Memory.wf cs = true)
    (ha : ∀ x ∈ cs, a < x.1) : Memory.wf (Memory.cons a v cs) = true := by
  unfold Memory.cons
  split
  · exact h
  · next hv => exact Memory.wf_cons.2 ⟨hv, ha, h⟩

/-- A write keeps the canonical form. -/
theorem Memory.wf_write {cs : List Host.Cell} (h : Memory.wf cs = true) (a : Nat) (v : Byte) :
    Memory.wf (Memory.write cs a v) = true := by
  induction cs with
  | nil => exact Memory.wf_putCell rfl (by simp)
  | cons c cs ih =>
    obtain ⟨hv, hlt, hcs⟩ := Memory.wf_cons.1 h
    unfold Memory.write
    split
    · next h1 =>
      refine Memory.wf_putCell h fun x hx => ?_
      rcases List.mem_cons.1 hx with rfl | hx
      · exact h1
      · have := hlt x hx; omega
    · split
      · next h2 => exact Memory.wf_putCell hcs (by rw [h2]; exact hlt)
      · refine Memory.wf_cons.2 ⟨hv, fun x hx => ?_, ih hcs⟩
        rcases Memory.mem_write hx with hx | hx
        · omega
        · exact hlt x hx

theorem Memory.mem_zeroBelow {n : Nat} {cs : List Host.Cell} {c : Host.Cell} :
    c ∈ Memory.zeroBelow n cs ↔ c ∈ cs ∧ n ≤ c.1 := by
  simp [Memory.zeroBelow]

/-- Zeroing keeps the canonical form. -/
theorem Memory.wf_zeroBelow {cs : List Host.Cell} (h : Memory.wf cs = true) (n : Nat) :
    Memory.wf (Memory.zeroBelow n cs) = true := by
  induction cs with
  | nil => rfl
  | cons c cs ih =>
    obtain ⟨hv, hlt, hcs⟩ := Memory.wf_cons.1 h
    unfold Memory.zeroBelow
    rw [List.filter_cons]
    split
    · exact Memory.wf_cons.2 ⟨hv, fun x hx => hlt x (Memory.mem_zeroBelow.1 hx).1, ih hcs⟩
    · exact ih hcs

/-- Zeroing writes 0 below `n` and nothing else. -/
theorem Memory.read_zeroBelow (n : Nat) (cs : List Host.Cell) (a : Nat) :
    Memory.read (Memory.zeroBelow n cs) a = if a < n then Memory.unlisted else Memory.read cs a := by
  induction cs with
  | nil => simp [Memory.zeroBelow]
  | cons c cs ih =>
    unfold Memory.zeroBelow at ih ⊢
    rw [List.filter_cons]
    split
    · next hc =>
      rw [Memory.read_cons, Memory.read_cons, ih]
      simp only [decide_eq_true_eq] at hc
      by_cases h1 : c.1 = a
      · rw [if_pos h1, if_pos h1, if_neg (by omega)]
      · rw [if_neg h1, if_neg h1]
    · next hc =>
      rw [ih, Memory.read_cons]
      simp only [decide_eq_true_eq] at hc
      by_cases h1 : a < n
      · rw [if_pos h1, if_pos h1]
      · rw [if_neg h1, if_neg h1, if_neg (by omega)]

/-- In a canonical list the first cell's offset is the least listed one, and its byte is not the unlisted one. -/
theorem Memory.read_head {c : Host.Cell} {cs : List Host.Cell} : Memory.read (c :: cs) c.1 = c.2 := by
  rw [Memory.read_cons, if_pos rfl]

/-- One list per contents: canonical lists that read alike everywhere are equal. -/
theorem Memory.wf_ext {cs ds : List Host.Cell} (hc : Memory.wf cs = true) (hd : Memory.wf ds = true)
    (h : ∀ a, Memory.read cs a = Memory.read ds a) : cs = ds := by
  induction cs generalizing ds with
  | nil =>
    cases ds with
    | nil => rfl
    | cons d ds =>
      exact absurd ((h d.1).symm.trans rfl) (by rw [Memory.read_head]; exact (Memory.wf_cons.1 hd).1)
  | cons c cs ih =>
    obtain ⟨hcv, hclt, hcw⟩ := Memory.wf_cons.1 hc
    cases ds with
    | nil => exact absurd (h c.1) (by rw [Memory.read_head]; exact hcv)
    | cons d ds =>
      obtain ⟨hdv, hdlt, hdw⟩ := Memory.wf_cons.1 hd
      have hcd : c.1 = d.1 := by
        rcases Nat.lt_trichotomy c.1 d.1 with hlt | heq | hlt
        · refine absurd (h c.1) ?_
          rw [Memory.read_head, Memory.read_unlisted]
          · exact hcv
          · intro x hx
            rcases List.mem_cons.1 hx with rfl | hx
            · omega
            · have := hdlt x hx; omega
        · exact heq
        · refine absurd (h d.1).symm ?_
          rw [Memory.read_head, Memory.read_unlisted]
          · exact hdv
          · intro x hx
            rcases List.mem_cons.1 hx with rfl | hx
            · omega
            · have := hclt x hx; omega
      have hv : c.2 = d.2 := by
        have := h c.1
        rwa [Memory.read_head, hcd, Memory.read_head] at this
      have hcell : c = d := Prod.ext hcd hv
      subst hcell
      refine congrArg _ (ih hcw hdw fun a => ?_)
      by_cases ha : a = c.1
      · subst ha
        rw [Memory.read_below hclt le_rfl, Memory.read_below hdlt le_rfl]
      · have := h a
        rwa [Memory.read_cons, Memory.read_cons, if_neg (Ne.symm ha), if_neg (Ne.symm ha)] at this

end Sys2Proof.Machine
end

