-- ==== Sys2Proof/Laws/Ops.lean ====
section
/-! SUPPORT. What each shared operation can do, said once: access to a byte of the buffer, the response word, the
checks, and the derived quantities under the invariant. -/

namespace Sys2Proof.Machine

/-! ### Platform limits -/

theorem sizeMax_lt (p : Config.Params) : sizeMax p < 2 ^ 64 := by
  unfold sizeMax sizeWBits; split <;> norm_num

theorem log2Max_le (p : Config.Params) : log2Max p ≤ 64 := by
  unfold log2Max sizeWBits digestW; split <;> norm_num

theorem bvBytesOf_pos (l : Nat) : 0 < bvBytesOf l := by
  unfold bvBytesOf; split <;> positivity

/-- V = ceil(2^l / 8) (40_validate.md R115). -/
theorem bvBytesOf_eq_ceil (l : Nat) : bvBytesOf l = (2 ^ l + 7) / 8 := by
  unfold bvBytesOf
  split
  · next h => interval_cases l <;> rfl
  · next h =>
    obtain ⟨m, rfl⟩ : ∃ m, l = m + 3 := ⟨l - 3, by omega⟩
    rw [Nat.add_sub_cancel, pow_add]
    omega

/-- The byte of flag `n` lies in the bit vector. -/
theorem div8_lt_bvBytesOf {n l : Nat} (h : n < 2 ^ l) : n / 8 < bvBytesOf l := by
  rw [bvBytesOf_eq_ceil]; omega

/-! ### Cap -/

/-- Cap accepts exactly these sizes (40_validate.md R111). -/
theorem cap_eq_ok {p : Config.Params} {hc l2 size : Nat} (h : cap p hc l2 = .ok size) :
    1 ≤ hc ∧ hc ≤ sizeMax p ∧ l2 ≤ log2Max p ∧ size = hc * l2 + bvBytesOf l2 ∧ size ≤ sizeMax p := by
  unfold cap at h
  split at h; · cases h
  split at h; · cases h
  split at h; · cases h
  split at h; · cases h
  split at h; · cases h
  cases h
  omega

/-- Cap accepts whatever keeps every limit. -/
theorem cap_of_limits {p : Config.Params} {hc l2 : Nat} (h1 : 1 ≤ hc) (h2 : hc ≤ sizeMax p) (h3 : l2 ≤ log2Max p)
    (h4 : hc * l2 + bvBytesOf l2 ≤ sizeMax p) : cap p hc l2 = .ok (hc * l2 + bvBytesOf l2) := by
  have h5 := sizeMax_lt p
  have h6 := bvBytesOf_pos l2
  unfold cap hcFieldMax
  rw [if_neg (by omega), if_neg (by omega), if_neg (by omega), if_neg (by omega), if_neg (by omega)]

theorem cap_invalid_iff {p : Config.Params} {hc l2 : Nat} : cap p hc l2 = .invalidParameter ↔ hc = 0 := by
  unfold cap
  constructor
  · intro h
    by_contra hne
    rw [if_neg hne] at h
    split at h; · cases h
    split at h; · cases h
    split at h; · cases h
    split at h <;> cases h
  · intro h; rw [if_pos h]

/-! ### Derived quantities -/

theorem State.tableBytes_active {s : State} (h : s.active = true) :
    s.tableBytes = s.hashCount.toNat * s.log2Bits.toNat := by simp [State.tableBytes, h]

theorem State.bvBytes_active {s : State} (h : s.active = true) : s.bvBytes = bvBytesOf s.log2Bits.toNat := by
  simp [State.bvBytes, h]

theorem State.bufBytes_active {s : State} (h : s.active = true) :
    s.bufBytes = s.hashCount.toNat * s.log2Bits.toNat + bvBytesOf s.log2Bits.toNat := by
  simp [State.bufBytes, State.tableBytes_active h, State.bvBytes_active h]

@[simp] theorem State.bufBytes_inactive {s : State} (h : s.active = false) : s.bufBytes = 0 := by
  simp [State.bufBytes, State.tableBytes, State.bvBytes, h]

/-- Position `i` of function `k` has its stored index in the table region (20_memory.md R65). -/
theorem tableOffset_lt {s : State} (ha : s.active = true) {k i : Nat} (hk : k < s.hashCount.toNat)
    (hi : i < s.log2Bits.toNat) : tableOffset s k i < s.tableBytes := by
  rw [State.tableBytes_active ha]
  unfold tableOffset
  calc k * s.log2Bits.toNat + i < (k + 1) * s.log2Bits.toNat := by rw [Nat.succ_mul]; omega
    _ ≤ s.hashCount.toNat * s.log2Bits.toNat := Nat.mul_le_mul_right _ hk

theorem State.tableBytes_le (s : State) : s.tableBytes ≤ s.bufBytes := Nat.le_add_right _ _

/-- The byte of a flag lies in the buffer (20_memory.md R65). -/
theorem flagOffset_lt {s : State} (ha : s.active = true) {n : Nat} (hn : n < 2 ^ s.log2Bits.toNat) :
    flagOffset s n < s.bufBytes := by
  unfold flagOffset State.bufBytes
  rw [State.bvBytes_active ha]
  exact Nat.add_lt_add_left (div8_lt_bvBytesOf hn) _

/-! ### Access to a byte of the buffer -/

theorem State.inBuffer_iff {s : State} {off : Nat} :
    s.inBuffer off = true ↔ off < s.bufBytes ∧ off < s.params.memBytes := by
  simp [State.inBuffer]

theorem State.memRead_eq_some {s : State} {off : Nat} {b : Byte} :
    s.memRead off = some b ↔ s.inBuffer off = true ∧ Memory.read s.mem off = b := by
  unfold State.memRead
  split
  · next h => simp [h]
  · next h => simp [h]

theorem State.memRead_eq_none {s : State} {off : Nat} : s.memRead off = none ↔ s.inBuffer off = false := by
  unfold State.memRead
  split
  · next h => simp [h]
  · next h => simp [h]

/-- What a write that succeeds gives. -/
theorem State.memWrite_eq_some {s t : State} {off : Nat} {v : Byte} :
    s.memWrite off v = some t ↔ s.inBuffer off = true ∧ t = { s with mem := Memory.write s.mem off v } := by
  unfold State.memWrite
  split
  · next h => simp [h, eq_comm]
  · next h => simp [h]

theorem State.memWrite_of_inBuffer {s : State} {off : Nat} (h : s.inBuffer off = true) (v : Byte) :
    s.memWrite off v = some { s with mem := Memory.write s.mem off v } :=
  State.memWrite_eq_some.2 ⟨h, rfl⟩

/-- Read after write through the state. -/
theorem State.memRead_write {s : State} (hw : Memory.wf s.mem = true) {off : Nat} (h : s.inBuffer off = true)
    (v : Byte) (a : Nat) :
    ({ s with mem := Memory.write s.mem off v } : State).memRead a = if a = off then some v else s.memRead a := by
  have hin : ({ s with mem := Memory.write s.mem off v } : State).inBuffer a = s.inBuffer a := rfl
  unfold State.memRead
  rw [hin, Memory.read_write hw]
  by_cases ha : a = off
  · subst ha; simp [h]
  · simp [ha]

/-- Two states with the same sizes, canonical memories inside the buffer, and the same byte everywhere, list the same
cells. -/
theorem State.mem_ext {s t : State} (hs : Memory.wf s.mem = true) (ht : Memory.wf t.mem = true)
    (hsi : ∀ c ∈ s.mem, s.inBuffer c.1 = true) (hti : ∀ c ∈ t.mem, t.inBuffer c.1 = true)
    (h : ∀ off, s.memRead off = t.memRead off) : s.mem = t.mem := by
  refine Memory.wf_ext hs ht fun a => ?_
  by_cases ha : s.inBuffer a = true
  · have h1 := State.memRead_eq_some.2 ⟨ha, rfl⟩
    rw [h a] at h1
    exact (State.memRead_eq_some.1 h1).2.symm
  · have h1 : s.memRead a = none := State.memRead_eq_none.2 (by simpa using ha)
    have h2 : t.inBuffer a = false := State.memRead_eq_none.1 (by rw [← h a]; exact h1)
    rw [Memory.read_unlisted, Memory.read_unlisted]
    · intro c hc hca; have := hti c hc; rw [hca, h2] at this; cases this
    · intro c hc hca; exact ha (by rw [← hca]; exact hsi c hc)

/-! ### Under the invariant -/

theorem State.Inv.bufBytes_le {s : State} (h : s.Inv) : s.bufBytes ≤ s.params.memBytes ∧ s.bufBytes < 2 ^ 64 := by
  cases ha : s.active with
  | false => rw [State.bufBytes_inactive ha]; exact ⟨Nat.zero_le _, by norm_num⟩
  | true =>
    have h1 := h.size ha
    have h2 := sizeMax_lt s.params
    omega

/-- Every offset of the buffer has its byte. -/
theorem State.Inv.inBuffer {s : State} (h : s.Inv) {off : Nat} (ho : off < s.bufBytes) : s.inBuffer off = true :=
  State.inBuffer_iff.2 ⟨ho, lt_of_lt_of_le ho h.bufBytes_le.1⟩

theorem State.Inv.memRead {s : State} (h : s.Inv) {off : Nat} (ho : off < s.bufBytes) :
    s.memRead off = some (Memory.read s.mem off) :=
  State.memRead_eq_some.2 ⟨h.inBuffer ho, rfl⟩

theorem State.Inv.mem_inBuffer {s : State} (h : s.Inv) : ∀ c ∈ s.mem, s.inBuffer c.1 = true :=
  fun c hc => h.inBuffer (h.memInside c hc)

theorem State.Inv.log2Bits_le {s : State} (h : s.Inv) : s.log2Bits.toNat ≤ 64 := by
  cases ha : s.active with
  | false => rw [(h.inactive ha).2.1]; simp
  | true => exact le_trans (h.log2Bits ha) (log2Max_le _)

/-- A response handed over keeps the invariant. -/
theorem State.Inv.push {s : State} (h : s.Inv) (r : Response) : (s.push r).Inv :=
  { params := h.params, inactive := h.inactive, hashCount := h.hashCount, log2Bits := h.log2Bits, size := h.size,
    noFault := h.noFault, faulted := h.faulted, memWf := h.memWf, memInside := h.memInside }

/-- A command channel with other words keeps the invariant. -/
theorem State.Inv.withCmds {s : State} (h : s.Inv) (ws : List CmdWord) : ({ s with cmds := ws } : State).Inv :=
  { params := h.params, inactive := h.inactive, hashCount := h.hashCount, log2Bits := h.log2Bits, size := h.size,
    noFault := h.noFault, faulted := h.faulted, memWf := h.memWf, memInside := h.memInside }

/-- While no fault is recorded, another canonical memory inside the buffer keeps the invariant. -/
theorem State.Inv.withMem {s : State} (h : s.Inv) (hf : s.fault = false) {m : List Host.Cell}
    (hw : Memory.wf m = true) (hm : ∀ c ∈ m, c ∈ s.mem ∨ s.inBuffer c.1 = true) : ({ s with mem := m } : State).Inv :=
  { params := h.params, inactive := h.inactive, hashCount := h.hashCount, log2Bits := h.log2Bits, size := h.size,
    noFault := h.noFault, faulted := fun hc => absurd (show s.fault = true from hc) (by simp [hf]), memWf := hw,
    memInside := fun c hc => (hm c hc).elim (h.memInside c) fun hin => (State.inBuffer_iff.1 hin).1 }

/-! ### Responses -/

theorem Response.word_status (r : Response) : r.word.extractLsb' 72 8 = r.status.code := by
  unfold Response.word
  rw [BitVec.extractLsb'_append_eq_of_le (by norm_num), BitVec.extractLsb'_append_eq_of_le (by norm_num)]
  exact BitVec.extractLsb'_eq_self

theorem Response.word_data (r : Response) : r.word.extractLsb' 0 64 = r.data := by
  unfold Response.word
  rw [BitVec.extractLsb'_append_eq_of_add_le (by norm_num)]
  exact BitVec.extractLsb'_eq_self

theorem Response.word_rop (r : Response) : r.word.extractLsb' 64 8 = r.rop := by
  unfold Response.word
  rw [BitVec.extractLsb'_append_eq_of_le (by norm_num), BitVec.extractLsb'_append_eq_of_add_le (by norm_num)]
  exact BitVec.extractLsb'_eq_self

theorem Status.code_inj {e e' : Status} (h : e.code = e'.code) : e = e' := by
  cases e <;> cases e' <;> first | rfl | exact absurd h (by decide)

/-- A response word tells its three fields. -/
theorem Response.word_inj {r r' : Response} (h : r.word = r'.word) : r = r' := by
  have h1 : r.status = r'.status := Status.code_inj (by rw [← r.word_status, h, r'.word_status])
  have h2 : r.rop = r'.rop := by rw [← r.word_rop, h, r'.word_rop]
  have h3 : r.data = r'.data := by rw [← r.word_data, h, r'.word_data]
  cases r; cases r'; simp_all

/-- Two states that one response after the same history made. -/
theorem State.push_rsps_inj {s t : State} {r r' : Response} (h : s.rsps = t.rsps)
    (heq : (s.push r).rsps = t.rsps ++ [r'.word]) : r = r' := by
  rw [State.push_rsps, h] at heq
  exact Response.word_inj (by simpa using heq)

/-! ### Checks -/

theorem unlessFaulted_of {s : State} (h : s.fault = false) (op : Byte) (run : Result) :
    unlessFaulted op s run = run := by simp [unlessFaulted, h]

theorem unlessFaulted_faulted {s : State} (h : s.fault = true) (op : Byte) (run : Result) :
    unlessFaulted op s run = raise .eFaulted op s := by simp [unlessFaulted, h]

theorem withFilter_of {s : State} (hf : s.fault = false) (ha : s.active = true) (op : Byte) (run : Result) :
    withFilter op s run = run := by simp [withFilter, unlessFaulted, hf, ha]

theorem withoutFilter_of {s : State} (hf : s.fault = false) (ha : s.active = false) (op : Byte) (run : Result) :
    withoutFilter op s run = run := by simp [withoutFilter, unlessFaulted, hf, ha]

/-- What the checks before a filter command can do: refuse it, or let it run. -/
theorem withFilter_next {op : Byte} {s t : State} {run : Result} (h : withFilter op s run = .next t) :
    (s.fault = true ∧ t = s.push ⟨.eFaulted, op, 0⟩) ∨
    (s.fault = false ∧ s.active = false ∧ t = s.push ⟨.eState, op, 0⟩) ∨
    (s.fault = false ∧ s.active = true ∧ run = .next t) := by
  unfold withFilter unlessFaulted raise at h
  split at h
  · next hf => cases h; exact .inl ⟨hf, rfl⟩
  · next hf =>
    split at h
    · next ha => exact .inr (.inr ⟨by simpa using hf, ha, h⟩)
    · next ha => cases h; exact .inr (.inl ⟨by simpa using hf, by simpa using ha, rfl⟩)

end Sys2Proof.Machine
end

