-- ==== Sys2Proof/Laws/Engine.lean ====
section
/-! SUPPORT. What the engine's loops can do, said once each: an evaluation, INSERT's two phases, QUERY's short
circuit. -/

namespace Sys2Proof.Machine

/-! ### Sequencing -/

@[simp] theorem Sweep.bind_value {α β : Type} (a : α) (f : α → Sweep β) : (Sweep.value a).bind f = f a := rfl
@[simp] theorem Sweep.bind_tableFault {α β : Type} (off : Nat) (f : α → Sweep β) :
    (Sweep.tableFault off : Sweep α).bind f = .tableFault off := rfl
@[simp] theorem Sweep.bind_outside {α β : Type} (off : Nat) (f : α → Sweep β) :
    (Sweep.outside off : Sweep α).bind f = .outside off := rfl

theorem Sweep.bind_assoc {α β γ : Type} (r : Sweep α) (f : α → Sweep β) (g : β → Sweep γ) :
    (r.bind f).bind g = r.bind fun a => (f a).bind g := by cases r <;> rfl

theorem Sweep.bind_eq_value {α β : Type} {r : Sweep α} {f : α → Sweep β} {b : β} :
    r.bind f = .value b ↔ ∃ a, r = .value a ∧ f a = .value b := by cases r <;> simp [Sweep.bind]

theorem Sweep.bind_eq_tableFault {α β : Type} {r : Sweep α} {f : α → Sweep β} {off : Nat} :
    r.bind f = .tableFault off ↔ r = .tableFault off ∨ ∃ a, r = .value a ∧ f a = .tableFault off := by
  cases r <;> simp [Sweep.bind]

theorem Sweep.bind_eq_outside {α β : Type} {r : Sweep α} {f : α → Sweep β} {off : Nat} :
    r.bind f = .outside off ↔ r = .outside off ∨ ∃ a, r = .value a ∧ f a = .outside off := by
  cases r <;> simp [Sweep.bind]

/-- What a command that ends with an evaluation can answer. -/
theorem Sweep.finish_next {α : Type} {r : Sweep α} {op : Byte} {s t : State} {run : α → Result}
    (h : r.finish op s run = .next t) :
    (∃ a, r = .value a ∧ run a = .next t) ∨
    (∃ off, r = .tableFault off ∧ t = (s.faultedAt off).push ⟨.eTable, op, 0⟩) := by
  cases r with
  | value a => exact .inl ⟨a, rfl, h⟩
  | tableFault off =>
    refine .inr ⟨off, rfl, ?_⟩
    simp only [Sweep.finish, takeTableFault, raise] at h
    cases h; rfl
  | outside off => cases h

/-! ### One stored index -/

theorem readIndex_eq_value {s : State} {k i n : Nat} :
    readIndex s k i = .value n ↔ ∃ b, s.memRead (tableOffset s k i) = some b ∧ b.toNat = n ∧ n < 160 := by
  unfold readIndex digestW
  cases h : s.memRead (tableOffset s k i) with
  | none => simp
  | some b =>
    simp only [Option.some.injEq, exists_eq_left']
    split <;> simp <;> omega

theorem readIndex_eq_tableFault {s : State} {k i off : Nat} :
    readIndex s k i = .tableFault off ↔
      off = tableOffset s k i ∧ ∃ b, s.memRead (tableOffset s k i) = some b ∧ 160 ≤ b.toNat := by
  unfold readIndex digestW
  cases h : s.memRead (tableOffset s k i) with
  | none => simp
  | some b =>
    simp only [Option.some.injEq, exists_eq_left']
    split
    · simp; omega
    · simp; omega

theorem readIndex_eq_outside {s : State} {k i off : Nat} :
    readIndex s k i = .outside off ↔ off = tableOffset s k i ∧ s.memRead (tableOffset s k i) = none := by
  unfold readIndex digestW
  cases h : s.memRead (tableOffset s k i) with
  | none => simp [eq_comm]
  | some b => simp; split <;> simp

/-! ### Eval (43_engine.md R151) -/

/-- Eval's loop gives a value exactly when every index it read is good; the value is the selected bits. -/
theorem evalUpTo_eq_value {s : State} {k : Nat} {d : Digest} {n p : Nat} :
    evalUpTo s k d n = .value p ↔
      p < 2 ^ n ∧ ∀ i, i < n → ∃ b, s.memRead (tableOffset s k i) = some b ∧ b.toNat < 160 ∧
        p.testBit i = d.getLsbD b.toNat := by
  induction n generalizing p with
  | zero => simp [evalUpTo, eq_comm]
  | succ n ih =>
    unfold evalUpTo
    constructor
    · intro h
      obtain ⟨q, hq, h⟩ := Sweep.bind_eq_value.1 h
      obtain ⟨idx, hidx, h⟩ := Sweep.bind_eq_value.1 h
      obtain ⟨hlt, hbits⟩ := ih.1 hq
      obtain ⟨b, hb, rfl, hb160⟩ := readIndex_eq_value.1 hidx
      cases h
      have hbit : digestBit d b.toNat ≤ 1 := by unfold digestBit; cases d.getLsbD b.toNat <;> simp
      have hpow : 2 ^ (n + 1) = 2 ^ n + 2 ^ n := by rw [pow_succ]; omega
      have hform : q + digestBit d b.toNat * 2 ^ n = 2 ^ n * digestBit d b.toNat + q := by
        rw [Nat.mul_comm, Nat.add_comm]
      refine ⟨?_, fun i hi => ?_⟩
      · rcases Nat.le_one_iff_eq_zero_or_eq_one.1 hbit with h0 | h1
        · rw [h0]; omega
        · rw [h1]; omega
      · rw [hform]
        rcases Nat.lt_succ_iff_lt_or_eq.1 hi with hi | rfl
        · obtain ⟨b', hb', hlt', hbit'⟩ := hbits i hi
          exact ⟨b', hb', hlt', by rw [Nat.testBit_two_pow_mul_add _ hlt, if_pos hi, hbit']⟩
        · refine ⟨b, hb, hb160, ?_⟩
          rw [Nat.testBit_two_pow_mul_add _ hlt, if_neg (lt_irrefl _), Nat.sub_self]
          unfold digestBit
          cases d.getLsbD b.toNat <;> rfl
    · rintro ⟨hlt, hbits⟩
      obtain ⟨b, hb, hb160, hbit⟩ := hbits n (Nat.lt_succ_self n)
      refine Sweep.bind_eq_value.2 ⟨p % 2 ^ n, ih.2 ⟨Nat.mod_lt _ (by positivity), fun i hi => ?_⟩,
        Sweep.bind_eq_value.2 ⟨b.toNat, readIndex_eq_value.2 ⟨b, hb, rfl, hb160⟩, ?_⟩⟩
      · obtain ⟨b', hb', hlt', hbit'⟩ := hbits i (by omega)
        exact ⟨b', hb', hlt', by rw [Nat.testBit_mod_two_pow, ← hbit']; simp [hi]⟩
      · congr 1
        have hdiv : p / 2 ^ n = digestBit d b.toNat := by
          have h2 : p / 2 ^ n < 2 := by
            rw [Nat.div_lt_iff_lt_mul (by positivity)]; rw [pow_succ] at hlt; omega
          have h3 : (p / 2 ^ n) % 2 = digestBit d b.toNat := by
            unfold digestBit
            rw [← hbit, Nat.testBit_eq_decide_div_mod_eq]
            have : p / 2 ^ n % 2 = 0 ∨ p / 2 ^ n % 2 = 1 := by omega
            rcases this with h | h <;> simp [h]
          rwa [Nat.mod_eq_of_lt h2] at h3
        rw [← hdiv, Nat.mul_comm, Nat.mod_add_div]

/-- Eval's loop meets a table fault exactly at the first index of 160 or more. -/
theorem evalUpTo_eq_tableFault {s : State} {k : Nat} {d : Digest} {n off : Nat} :
    evalUpTo s k d n = .tableFault off ↔
      ∃ i, i < n ∧ off = tableOffset s k i ∧ (∃ b, s.memRead off = some b ∧ 160 ≤ b.toNat) ∧
        ∀ j, j < i → ∃ b, s.memRead (tableOffset s k j) = some b ∧ b.toNat < 160 := by
  induction n with
  | zero => simp [evalUpTo]
  | succ n ih =>
    unfold evalUpTo
    rw [Sweep.bind_eq_tableFault, ih]
    constructor
    · rintro (⟨i, hi, h⟩ | ⟨p, hp, h⟩)
      · exact ⟨i, by omega, h⟩
      · rcases Sweep.bind_eq_tableFault.1 h with h | ⟨_, _, h⟩
        · obtain ⟨rfl, hb⟩ := readIndex_eq_tableFault.1 h
          refine ⟨n, Nat.lt_succ_self n, rfl, hb, fun j hj => ?_⟩
          obtain ⟨b, hb, hlt, _⟩ := (evalUpTo_eq_value.1 hp).2 j hj
          exact ⟨b, hb, hlt⟩
        · cases h
    · rintro ⟨i, hi, rfl, hb, hbefore⟩
      rcases Nat.lt_succ_iff_lt_or_eq.1 hi with hi | rfl
      · exact .inl ⟨i, hi, rfl, hb, hbefore⟩
      · have hval : ∀ m, m ≤ i → ∃ p, evalUpTo s k d m = .value p := by
          intro m
          induction m with
          | zero => exact fun _ => ⟨0, rfl⟩
          | succ m ihm =>
            intro hm
            obtain ⟨p, hp⟩ := ihm (by omega)
            obtain ⟨b, hb, hlt⟩ := hbefore m (by omega)
            refine ⟨p + digestBit d b.toNat * 2 ^ m, ?_⟩
            rw [evalUpTo, hp, Sweep.bind_value, readIndex_eq_value.2 ⟨b, hb, rfl, hlt⟩, Sweep.bind_value]
        obtain ⟨p, hp⟩ := hval i le_rfl
        exact .inr ⟨p, hp, Sweep.bind_eq_tableFault.2 (.inl (readIndex_eq_tableFault.2 ⟨rfl, hb⟩))⟩

/-- Eval's loop stops at a missing byte only where the memory has none. -/
theorem evalUpTo_ne_outside {s : State} {k : Nat} {d : Digest} {n off : Nat}
    (h : ∀ i, i < n → s.memRead (tableOffset s k i) ≠ none) : evalUpTo s k d n ≠ .outside off := by
  induction n with
  | zero => simp [evalUpTo]
  | succ n ih =>
    unfold evalUpTo
    rw [Ne, Sweep.bind_eq_outside, not_or]
    refine ⟨ih fun i hi => h i (by omega), ?_⟩
    rintro ⟨p, _, hp⟩
    rcases Sweep.bind_eq_outside.1 hp with hp | ⟨_, _, hp⟩
    · exact h n (Nat.lt_succ_self n) (readIndex_eq_outside.1 hp).2
    · cases hp

/-- The hash value is less than 2^L. -/
theorem eval_lt {s : State} {k : Nat} {d : Digest} {p : Nat} (h : eval s k d = .value p) :
    p < 2 ^ s.log2Bits.toNat := (evalUpTo_eq_value.1 h).1

/-- Eval reads nothing but `log2_bits` and the run of its function (42_buffer.md R143). -/
theorem eval_congr {s t : State} {k : Nat} {d : Digest} (hL : t.log2Bits = s.log2Bits)
    (h : ∀ i, i < s.log2Bits.toNat → t.memRead (tableOffset s k i) = s.memRead (tableOffset s k i)) :
    eval t k d = eval s k d := by
  unfold eval
  rw [hL]
  have key : ∀ n, n ≤ s.log2Bits.toNat → evalUpTo t k d n = evalUpTo s k d n := by
    intro n
    induction n with
    | zero => intro _; rfl
    | succ n ih =>
      intro hn
      have hr : readIndex t k n = readIndex s k n := by
        unfold readIndex
        have ho : tableOffset t k n = tableOffset s k n := by unfold tableOffset; rw [hL]
        rw [ho, h n (by omega)]
      rw [evalUpTo, evalUpTo, ih (by omega), hr]
  exact key _ le_rfl

/-- In a state that meets the invariant an evaluation ends with a value or with a table fault. -/
theorem State.Inv.eval_total {s : State} (h : s.Inv) (ha : s.active = true) {k : Nat} (hk : k < s.hashCount.toNat)
    (d : Digest) : (∃ p, eval s k d = .value p) ∨ ∃ off, eval s k d = .tableFault off := by
  cases he : eval s k d with
  | value p => exact .inl ⟨p, rfl⟩
  | tableFault off => exact .inr ⟨off, rfl⟩
  | outside off =>
    refine absurd he (evalUpTo_ne_outside fun i hi => ?_)
    rw [h.memRead (lt_of_lt_of_le (tableOffset_lt ha hk hi) s.tableBytes_le)]
    simp

/-- A table fault names a byte of the table region that holds 160 or more. -/
theorem eval_fault_offset {s : State} (ha : s.active = true) {k : Nat} (hk : k < s.hashCount.toNat) {d : Digest}
    {off : Nat} (h : eval s k d = .tableFault off) :
    off < s.tableBytes ∧ ∃ b, s.memRead off = some b ∧ 160 ≤ b.toNat := by
  obtain ⟨i, hi, rfl, hb, _⟩ := evalUpTo_eq_tableFault.1 h
  exact ⟨tableOffset_lt ha hk hi, hb⟩

/-! ### INSERT, phase 1 -/

/-- Phase 1 gives the hash values of the functions, in order. -/
theorem positionsUpTo_eq_value {s : State} {d : Digest} {n : Nat} {ps : List Nat} :
    positionsUpTo s d n = .value ps ↔
      ps.length = n ∧ ∀ k, k < n → ∃ p, ps[k]? = some p ∧ eval s k d = .value p := by
  induction n generalizing ps with
  | zero => simp [positionsUpTo, eq_comm]
  | succ n ih =>
    unfold positionsUpTo
    rw [Sweep.bind_eq_value]
    constructor
    · rintro ⟨qs, hqs, h⟩
      obtain ⟨p, hp, h⟩ := Sweep.bind_eq_value.1 h
      cases h
      obtain ⟨hlen, hq⟩ := ih.1 hqs
      refine ⟨by simp [hlen], fun k hk => ?_⟩
      rcases Nat.lt_succ_iff_lt_or_eq.1 hk with hk | rfl
      · obtain ⟨q, hq1, hq2⟩ := hq k hk
        exact ⟨q, by rw [List.getElem?_append_left (by omega)]; exact hq1, hq2⟩
      · exact ⟨p, by rw [← hlen]; simp, hp⟩
    · rintro ⟨hlen, hq⟩
      obtain ⟨p, hp1, hp2⟩ := hq n (Nat.lt_succ_self n)
      have hsplit : ps.take n ++ [p] = ps := by
        have := List.take_append_drop n ps
        rw [List.drop_eq_getElem_cons (by omega), List.drop_eq_nil_of_le (by omega)] at this
        have hpe : ps[n]'(by omega) = p := by
          rw [List.getElem?_eq_getElem (by omega)] at hp1
          exact Option.some.inj hp1
        rw [hpe] at this
        exact this
      refine ⟨ps.take n, ih.2 ⟨by simp [hlen], fun k hk => ?_⟩, Sweep.bind_eq_value.2 ⟨p, hp2, by rw [hsplit]⟩⟩
      obtain ⟨q, hq1, hq2⟩ := hq k (by omega)
      exact ⟨q, by rw [List.getElem?_take_of_lt hk]; exact hq1, hq2⟩

/-- Phase 1 meets a table fault exactly at the first function that does. -/
theorem positionsUpTo_eq_tableFault {s : State} {d : Digest} {n off : Nat} :
    positionsUpTo s d n = .tableFault off ↔
      ∃ k, k < n ∧ eval s k d = .tableFault off ∧ ∀ j, j < k → ∃ p, eval s j d = .value p := by
  induction n with
  | zero => simp [positionsUpTo]
  | succ n ih =>
    unfold positionsUpTo
    rw [Sweep.bind_eq_tableFault, ih]
    constructor
    · rintro (⟨k, hk, h⟩ | ⟨ps, hps, h⟩)
      · exact ⟨k, by omega, h⟩
      · rcases Sweep.bind_eq_tableFault.1 h with h | ⟨_, _, h⟩
        · refine ⟨n, Nat.lt_succ_self n, h, fun j hj => ?_⟩
          obtain ⟨p, _, hp⟩ := (positionsUpTo_eq_value.1 hps).2 j hj
          exact ⟨p, hp⟩
        · cases h
    · rintro ⟨k, hk, h, hbefore⟩
      rcases Nat.lt_succ_iff_lt_or_eq.1 hk with hk | rfl
      · exact .inl ⟨k, hk, h, hbefore⟩
      · have hval : ∀ m, m ≤ k → ∃ ps, positionsUpTo s d m = .value ps := by
          intro m
          induction m with
          | zero => exact fun _ => ⟨[], rfl⟩
          | succ m ihm =>
            intro hm
            obtain ⟨ps, hps⟩ := ihm (by omega)
            obtain ⟨p, hp⟩ := hbefore m (by omega)
            exact ⟨ps ++ [p], by rw [positionsUpTo, hps, Sweep.bind_value, hp, Sweep.bind_value]⟩
        obtain ⟨ps, hps⟩ := hval k le_rfl
        exact .inr ⟨ps, hps, Sweep.bind_eq_tableFault.2 (.inl h)⟩

/-- Phase 1 stops at a missing byte only where an evaluation does. -/
theorem positionsUpTo_ne_outside {s : State} {d : Digest} {n off : Nat}
    (h : ∀ k, k < n → ∀ o, eval s k d ≠ .outside o) : positionsUpTo s d n ≠ .outside off := by
  induction n with
  | zero => simp [positionsUpTo]
  | succ n ih =>
    unfold positionsUpTo
    rw [Ne, Sweep.bind_eq_outside, not_or]
    refine ⟨ih fun k hk => h k (by omega), ?_⟩
    rintro ⟨ps, _, hp⟩
    rcases Sweep.bind_eq_outside.1 hp with hp | ⟨_, _, hp⟩
    · exact h n (Nat.lt_succ_self n) _ hp
    · cases hp

/-- Phase 1 depends on the evaluations alone. -/
theorem positionsUpTo_congr {s t : State} {d : Digest} {n : Nat} (h : ∀ k, k < n → eval t k d = eval s k d) :
    positionsUpTo t d n = positionsUpTo s d n := by
  induction n with
  | zero => rfl
  | succ n ih =>
    rw [positionsUpTo, positionsUpTo, ih fun k hk => h k (by omega), h n (Nat.lt_succ_self n)]

/-! ### INSERT, phase 2 -/

theorem flagMask_getLsbD (n j : Nat) : (flagMask n).getLsbD j = decide (j = n % 8) := by
  unfold flagMask
  rw [BitVec.getLsbD_ofNat, Nat.testBit_two_pow]
  by_cases h : j = n % 8
  · subst h; simp; omega
  · simp [h, Ne.symm h]

/-- Setting one flag, where the memory has its byte. -/
theorem setFlag_eq_value {s t : State} {p : Nat} :
    setFlag s p = .value t ↔ s.inBuffer (flagOffset s p) = true ∧
      t = { s with mem := Memory.write s.mem (flagOffset s p) (Memory.read s.mem (flagOffset s p) ||| flagMask p) } := by
  unfold setFlag
  by_cases h : s.inBuffer (flagOffset s p) = true
  · rw [State.memRead_eq_some.2 ⟨h, rfl⟩]
    dsimp only
    rw [State.memWrite_of_inBuffer h]
    simp [h, eq_comm]
  · rw [State.memRead_eq_none.2 (by simpa using h)]
    simp [h]

theorem setFlag_ne_tableFault (s : State) (p off : Nat) : setFlag s p ≠ .tableFault off := by
  unfold setFlag
  split
  · simp
  · split <;> simp

theorem setFlag_eq_outside {s : State} {p off : Nat} (h : setFlag s p = .outside off) :
    s.inBuffer (flagOffset s p) = false := by
  by_contra hc
  have hc : s.inBuffer (flagOffset s p) = true := by simpa using hc
  rw [setFlag_eq_value.2 ⟨hc, rfl⟩] at h
  cases h

theorem setFlags_ne_tableFault (ps : List Nat) (s : State) (off : Nat) : setFlags ps s ≠ .tableFault off := by
  induction ps generalizing s with
  | nil => simp [setFlags]
  | cons p ps ih =>
    rw [setFlags, Ne, Sweep.bind_eq_tableFault, not_or]
    exact ⟨setFlag_ne_tableFault s p off, by rintro ⟨s', _, h⟩; exact ih s' h⟩

/-- Phase 2 runs to its end where every flag's byte is in the buffer. -/
theorem setFlags_total {ps : List Nat} {s : State} (h : ∀ p ∈ ps, s.inBuffer (flagOffset s p) = true) :
    ∃ t, setFlags ps s = .value t := by
  induction ps generalizing s with
  | nil => exact ⟨s, rfl⟩
  | cons p ps ih =>
    rw [setFlags, setFlag_eq_value.2 ⟨h p (by simp), rfl⟩, Sweep.bind_value]
    exact ih fun q hq => h q (by simp [hq])

/-- What phase 2 does: memory alone changes, it keeps its form and its offsets, and a bit of a byte afterwards is what
it was, or is the flag of one of the positions. -/
theorem setFlags_value {ps : List Nat} {s t : State} (hw : Memory.wf s.mem = true) (h : setFlags ps s = .value t) :
    t = { s with mem := t.mem } ∧ Memory.wf t.mem = true ∧
    (∀ c ∈ t.mem, c ∈ s.mem ∨ s.inBuffer c.1 = true) ∧
    ∀ off, Option.isSome (t.memRead off) = Option.isSome (s.memRead off) ∧
      ∀ b b', s.memRead off = some b → t.memRead off = some b' → ∀ j, j < 8 →
        (b'.getLsbD j = true ↔ b.getLsbD j = true ∨ ∃ p ∈ ps, off = flagOffset s p ∧ j = p % 8) := by
  induction ps generalizing s with
  | nil =>
    cases h
    refine ⟨rfl, hw, fun c hc => .inl hc, fun off => ⟨rfl, fun b b' hb hb' j _ => ?_⟩⟩
    rw [hb] at hb'; cases hb'; simp
  | cons p ps ih =>
    rw [setFlags] at h
    obtain ⟨s1, h1, h2⟩ := Sweep.bind_eq_value.1 h
    obtain ⟨hin, hs1⟩ := setFlag_eq_value.1 h1
    have hw1 : Memory.wf s1.mem = true := by rw [hs1]; exact Memory.wf_write hw _ _
    obtain ⟨ht, htw, htm, htr⟩ := ih hw1 h2
    have hfo : ∀ q, flagOffset s1 q = flagOffset s q := fun q => by rw [hs1]; rfl
    have hib : ∀ o, s1.inBuffer o = s.inBuffer o := fun o => by rw [hs1]; rfl
    have hr1 := fun a => State.memRead_write hw hin
      (Memory.read s.mem (flagOffset s p) ||| flagMask p) a
    rw [← hs1] at hr1
    refine ⟨by rw [ht, hs1], htw, fun c hc => ?_, fun off => ?_⟩
    · rcases htm c hc with hc | hc
      · rw [hs1] at hc
        rcases Memory.mem_write hc with hc | hc
        · exact .inr (by rw [hc]; exact hin)
        · exact .inl hc
      · exact .inr (by rw [← hib]; exact hc)
    · obtain ⟨hsome, hbits⟩ := htr off
      have hread := hr1 off
      by_cases hoff : off = flagOffset s p
      · rw [if_pos hoff] at hread
        have hold : s.memRead off = some (Memory.read s.mem (flagOffset s p)) := by
          rw [hoff]; exact State.memRead_eq_some.2 ⟨hin, rfl⟩
        refine ⟨by rw [hsome, hread, hold]; rfl, fun b b' hb hb' j hj => ?_⟩
        rw [hold] at hb; cases hb
        rw [hbits _ b' hread hb' j hj, BitVec.getLsbD_or, flagMask_getLsbD]
        simp only [hfo, List.mem_cons, exists_eq_or_imp, Bool.or_eq_true, decide_eq_true_eq]
        constructor
        · rintro ((h | h) | h)
          · exact .inl h
          · exact .inr (.inl ⟨hoff, h⟩)
          · exact .inr (.inr h)
        · rintro (h | h | h)
          · exact .inl (.inl h)
          · exact .inl (.inr h.2)
          · exact .inr h
      · rw [if_neg hoff] at hread
        refine ⟨by rw [hsome, hread], fun b b' hb hb' j hj => ?_⟩
        rw [hbits b b' (by rw [hread]; exact hb) hb' j hj]
        simp only [hfo, List.mem_cons, exists_eq_or_imp]
        constructor
        · rintro (h | h)
          · exact .inl h
          · exact .inr (.inr h)
        · rintro (h | h | h)
          · exact .inl h
          · exact absurd h.1 hoff
          · exact .inr h

/-! ### QUERY -/

theorem readFlag_eq_value {s : State} {p : Nat} {x : Bool} :
    readFlag s p = .value x ↔ ∃ b, s.memRead (flagOffset s p) = some b ∧ flagIn b p = x := by
  unfold readFlag
  cases s.memRead (flagOffset s p) <;> simp

theorem readFlag_ne_tableFault (s : State) (p off : Nat) : readFlag s p ≠ .tableFault off := by
  unfold readFlag
  split <;> simp

/-- The flag a function selects. -/
theorem selectedFlag_eq_value {s : State} {k : Nat} {d : Digest} {x : Bool} :
    selectedFlag s k d = .value x ↔ ∃ p, eval s k d = .value p ∧ readFlag s p = .value x :=
  Sweep.bind_eq_value

theorem selectedFlag_eq_tableFault {s : State} {k off : Nat} {d : Digest} :
    selectedFlag s k d = .tableFault off ↔ eval s k d = .tableFault off := by
  unfold selectedFlag
  rw [Sweep.bind_eq_tableFault]
  exact ⟨fun h => h.elim id fun ⟨_, _, h⟩ => absurd h (readFlag_ne_tableFault _ _ _), .inl⟩

/-- QUERY finds no unset flag exactly when every function selects a set one. -/
theorem queryUpTo_eq_true {s : State} {d : Digest} {n : Nat} :
    queryUpTo s d n = .value true ↔ ∀ k, k < n → selectedFlag s k d = .value true := by
  induction n with
  | zero => simp [queryUpTo]
  | succ n ih =>
    unfold queryUpTo
    rw [Sweep.bind_eq_value]
    constructor
    · rintro ⟨present, hp, h⟩ k hk
      cases present with
      | false => simp at h
      | true =>
        rcases Nat.lt_succ_iff_lt_or_eq.1 hk with hk | rfl
        · exact ih.1 hp k hk
        · simpa using h
    · intro h
      exact ⟨true, ih.2 fun k hk => h k (by omega), by simpa using h n (Nat.lt_succ_self n)⟩

/-- QUERY stops at the first function that selects an unset flag. -/
theorem queryUpTo_eq_false {s : State} {d : Digest} {n : Nat} :
    queryUpTo s d n = .value false ↔
      ∃ k, k < n ∧ selectedFlag s k d = .value false ∧ ∀ j, j < k → selectedFlag s j d = .value true := by
  induction n with
  | zero => simp [queryUpTo]
  | succ n ih =>
    unfold queryUpTo
    rw [Sweep.bind_eq_value]
    constructor
    · rintro ⟨present, hp, h⟩
      cases present with
      | false =>
        obtain ⟨k, hk, h⟩ := ih.1 hp
        exact ⟨k, by omega, h⟩
      | true => exact ⟨n, Nat.lt_succ_self n, by simpa using h, queryUpTo_eq_true.1 hp⟩
    · rintro ⟨k, hk, h, hbefore⟩
      rcases Nat.lt_succ_iff_lt_or_eq.1 hk with hk | rfl
      · exact ⟨false, ih.2 ⟨k, hk, h, hbefore⟩, by simp⟩
      · exact ⟨true, queryUpTo_eq_true.2 hbefore, by simpa using h⟩

/-- QUERY meets a table fault exactly at a function reached through set flags alone. -/
theorem queryUpTo_eq_tableFault {s : State} {d : Digest} {n off : Nat} :
    queryUpTo s d n = .tableFault off ↔
      ∃ k, k < n ∧ eval s k d = .tableFault off ∧ ∀ j, j < k → selectedFlag s j d = .value true := by
  induction n with
  | zero => simp [queryUpTo]
  | succ n ih =>
    unfold queryUpTo
    rw [Sweep.bind_eq_tableFault, ih]
    constructor
    · rintro (⟨k, hk, h⟩ | ⟨present, hp, h⟩)
      · exact ⟨k, by omega, h⟩
      · cases present with
        | false => simp at h
        | true =>
          exact ⟨n, Nat.lt_succ_self n, selectedFlag_eq_tableFault.1 (by simpa using h), queryUpTo_eq_true.1 hp⟩
    · rintro ⟨k, hk, h, hbefore⟩
      rcases Nat.lt_succ_iff_lt_or_eq.1 hk with hk | rfl
      · exact .inl ⟨k, hk, h, hbefore⟩
      · exact .inr ⟨true, queryUpTo_eq_true.2 hbefore, by simpa using selectedFlag_eq_tableFault.2 h⟩

/-- QUERY stops at a missing byte only where a selected flag does. -/
theorem queryUpTo_ne_outside {s : State} {d : Digest} {n off : Nat}
    (h : ∀ k, k < n → ∀ o, selectedFlag s k d ≠ .outside o) : queryUpTo s d n ≠ .outside off := by
  induction n with
  | zero => simp [queryUpTo]
  | succ n ih =>
    unfold queryUpTo
    rw [Ne, Sweep.bind_eq_outside, not_or]
    refine ⟨ih fun k hk => h k (by omega), ?_⟩
    rintro ⟨present, _, hp⟩
    cases present with
    | false => simp at hp
    | true => exact h n (Nat.lt_succ_self n) off (by simpa using hp)

/-- QUERY depends on the selected flags alone. -/
theorem queryUpTo_congr {s t : State} {d : Digest} {n : Nat}
    (h : ∀ k, k < n → selectedFlag t k d = selectedFlag s k d) : queryUpTo t d n = queryUpTo s d n := by
  induction n with
  | zero => rfl
  | succ n ih =>
    rw [queryUpTo, queryUpTo, ih fun k hk => h k (by omega), h n (Nat.lt_succ_self n)]

/-- In a state that meets the invariant the flag a value names has its byte. -/
theorem State.Inv.readFlag_total {s : State} (h : s.Inv) (ha : s.active = true) {k : Nat} {d : Digest} {p : Nat}
    (he : eval s k d = .value p) : ∃ x, readFlag s p = .value x :=
  ⟨_, readFlag_eq_value.2 ⟨_, h.memRead (flagOffset_lt ha (eval_lt he)), rfl⟩⟩

/-- In a state that meets the invariant a selected flag is found, or the evaluation meets a table fault. -/
theorem State.Inv.selectedFlag_total {s : State} (h : s.Inv) (ha : s.active = true) {k : Nat}
    (hk : k < s.hashCount.toNat) (d : Digest) :
    (∃ x, selectedFlag s k d = .value x) ∨ ∃ off, selectedFlag s k d = .tableFault off := by
  rcases h.eval_total ha hk d with ⟨p, hp⟩ | ⟨off, ho⟩
  · obtain ⟨x, hx⟩ := h.readFlag_total ha hp
    exact .inl ⟨x, selectedFlag_eq_value.2 ⟨p, hp, hx⟩⟩
  · exact .inr ⟨off, selectedFlag_eq_tableFault.2 ho⟩

end Sys2Proof.Machine
end

