-- ==== Sys2Proof/Laws/Exec.lean ====
section
/-! SUPPORT. What a command can do, said once: every next state of exec is one of eight kinds. -/

namespace Sys2Proof.Machine

/-- The commands that only read: VALIDATE, RDREG, BUFRD, HASHEVAL, QUERY (20_memory.md R68). -/
def readsOnly (i : Instr) : Bool :=
  match i with
  | .validate _ _ => true
  | .rdreg _ => true
  | .bufrd _ => true
  | .hasheval _ _ => true
  | .query _ => true
  | .config _ _ => false
  | .release => false
  | .sreset => false
  | .bufwr _ _ => false
  | .insert _ => false

/-- The ways a command can end in a next state. -/
inductive Answered (i : Instr) (s t : State) : Prop where
  /-- Refused: nothing changes (60_exceptions.md R182); the status is that of the first check that fails (R178), or the
  term is no command (log entry 11). -/
  | refused (e : Status) (ne_ok : e ≠ .ok) (ne_table : e ≠ .eTable)
      (check : firstCheck i s = some e ∨ (e = .eIllegal ∧ i.wf = false)) (eq : t = s.push ⟨e, i.opcode, 0⟩)
  /-- A reading command that ends OK: nothing changes. -/
  | read (data : U64) (reads : readsOnly i = true) (eq : t = s.push ⟨.ok, i.opcode, data⟩)
  /-- CONFIG that ends OK. -/
  | config (hc : U64) (l2 : Byte) (size : Nat) (isConfig : i = .config hc l2) (noFault : s.fault = false)
      (inactive : s.active = false) (capOk : cap s.params hc.toNat l2.toNat = .ok size)
      (fits : size ≤ s.params.memBytes)
      (eq : t = (s.configured hc l2 size).push ⟨.ok, i.opcode, BitVec.ofNat 64 size⟩)
  /-- RELEASE that ends OK. -/
  | release (isRelease : i = .release) (noFault : s.fault = false) (active : s.active = true)
      (eq : t = s.released.push ⟨.ok, i.opcode, 0⟩)
  /-- SRESET. -/
  | sreset (isSreset : i = .sreset) (eq : t = s.clear.push ⟨.ok, i.opcode, 0⟩)
  /-- BUFWR that ends OK. -/
  | bufwr (off : U64) (byte : Byte) (isBufwr : i = .bufwr off byte) (noFault : s.fault = false)
      (active : s.active = true) (inside : s.inBuffer off.toNat = true)
      (eq : t = State.push { s with mem := Memory.write s.mem off.toNat byte } ⟨.ok, i.opcode, 0⟩)
  /-- INSERT that ends OK. -/
  | insert (d : Digest) (ps : List Nat) (s' : State) (isInsert : i = .insert d) (noFault : s.fault = false)
      (active : s.active = true) (phase1 : positionsUpTo s d s.hashCount.toNat = .value ps)
      (phase2 : setFlags ps s = .value s') (eq : t = s'.push ⟨.ok, i.opcode, 0⟩)
  /-- A table fault in HASHEVAL, INSERT or QUERY. -/
  | tableFault (k off : Nat) (d : Digest)
      (evaluates : (∃ kw : U64, i = .hasheval kw d ∧ kw.toNat = k) ∨
        (i = .insert d ∧ ∀ j, j < k → ∃ p, eval s j d = .value p) ∨
        (i = .query d ∧ ∀ j, j < k → selectedFlag s j d = .value true))
      (noFault : s.fault = false) (active : s.active = true) (inRange : k < s.hashCount.toNat)
      (faults : eval s k d = .tableFault off) (eq : t = (s.faultedAt off).push ⟨.eTable, i.opcode, 0⟩)

theorem unlessFaulted_next {op : Byte} {s t : State} {run : Result} (h : unlessFaulted op s run = .next t) :
    (s.fault = true ∧ t = s.push ⟨.eFaulted, op, 0⟩) ∨ (s.fault = false ∧ run = .next t) := by
  unfold unlessFaulted raise at h
  split at h
  · next hf => cases h; exact .inl ⟨hf, rfl⟩
  · next hf => exact .inr ⟨by simpa using hf, h⟩

theorem withoutFilter_next {op : Byte} {s t : State} {run : Result} (h : withoutFilter op s run = .next t) :
    (s.fault = true ∧ t = s.push ⟨.eFaulted, op, 0⟩) ∨
    (s.fault = false ∧ s.active = true ∧ t = s.push ⟨.eState, op, 0⟩) ∨
    (s.fault = false ∧ s.active = false ∧ run = .next t) := by
  rcases unlessFaulted_next h with h | ⟨hf, h⟩
  · exact .inl h
  · split at h
    · next ha => cases h; exact .inr (.inl ⟨hf, ha, rfl⟩)
    · next ha => exact .inr (.inr ⟨hf, by simpa using ha, h⟩)

/-! ### The first check that fails (60_exceptions.md R178) -/

theorem firstCheck_faulted {i : Instr} {s : State} (hi : skipsChecks i = false) (hf : s.fault = true) :
    firstCheck i s = some .eFaulted := by simp [firstCheck, hi, hf]

theorem firstCheck_state {i : Instr} {s : State} (hi : skipsChecks i = false) (hf : s.fault = false)
    (h : stateCheck i s = some .eState) : firstCheck i s = some .eState := by simp [firstCheck, hi, hf, h]

theorem firstCheck_operand {i : Instr} {s : State} (hi : skipsChecks i = false) (hf : s.fault = false)
    (h : stateCheck i s = none) : firstCheck i s = operandCheck i s := by simp [firstCheck, hi, hf, h]

/-- A check that fails is what the command ends with. -/
theorem exec_of_firstCheck {i : Instr} {s : State} {e : Status} (h : firstCheck i s = some e) :
    exec i s = .next (s.push ⟨e, i.opcode, 0⟩) := by
  unfold firstCheck at h
  cases hf : s.fault <;> cases ha : s.active <;> cases i <;>
    simp only [skipsChecks, hf, ha, stateCheck, Bool.false_eq_true, if_true, if_false, Option.some_or,
      Option.none_or, reduceCtorEq, Option.some.injEq] at h
  all_goals simp only [exec, execValidate, execConfig, execRelease, execBufrd, execBufwr, execHasheval, execInsert,
    execQuery, withFilter, withoutFilter, unlessFaulted, unlessOutOfRange, hf, ha, Bool.false_eq_true, if_true,
    if_false]
  all_goals try (subst h; rfl)
  all_goals simp only [operandCheck, reduceCtorEq] at h
  case false.false.config hc l2 =>
    cases hcap : cap s.params hc.toNat l2.toNat with
    | invalidParameter => rw [hcap] at h; cases h; rfl
    | parametersTooLarge => rw [hcap] at h; cases h; rfl
    | ok size =>
      rw [hcap] at h
      by_cases hbig : s.params.memBytes < size
      · cases (if_pos hbig).symm.trans h; exact if_pos hbig
      · cases (if_neg hbig).symm.trans h
  case false.false.validate hc l2 =>
    cases hcap : cap s.params hc.toNat l2.toNat <;> rw [hcap] at h <;> cases h <;> rfl
  case false.true.validate hc l2 =>
    cases hcap : cap s.params hc.toNat l2.toNat <;> rw [hcap] at h <;> cases h <;> rfl
  case false.true.hasheval k dg =>
    by_cases hr : s.hashCount.toNat ≤ k.toNat
    · cases (if_pos hr).symm.trans h; exact if_pos hr
    · cases (if_neg hr).symm.trans h
  case false.true.bufrd off =>
    by_cases hr : s.bufBytes ≤ off.toNat
    · cases (if_pos hr).symm.trans h; exact if_pos hr
    · cases (if_neg hr).symm.trans h
  case false.true.bufwr off byte =>
    by_cases hr : s.bufBytes ≤ off.toNat
    · cases (if_pos hr).symm.trans h; exact if_pos hr
    · cases (if_neg hr).symm.trans h

/-! ### Every next state, command by command -/

theorem execValidate_next {hc : U64} {l2 : Byte} {s t : State} (h : execValidate hc l2 s = .next t) :
    Answered (.validate hc l2) s t := by
  rcases unlessFaulted_next h with ⟨hf, h⟩ | ⟨hf, h⟩
  · exact .refused .eFaulted (by decide) (by decide) (.inl (firstCheck_faulted rfl hf)) h
  · have hc := firstCheck_operand (i := .validate hc l2) rfl hf rfl
    split at h <;> cases h
    · next hcap => exact .refused .eInval (by decide) (by decide) (.inl (by rw [hc, operandCheck, hcap])) rfl
    · next hcap => exact .refused .e2Big (by decide) (by decide) (.inl (by rw [hc, operandCheck, hcap])) rfl
    · exact .read _ rfl rfl

theorem execConfig_next {hc : U64} {l2 : Byte} {s t : State} (h : execConfig hc l2 s = .next t) :
    Answered (.config hc l2) s t := by
  rcases withoutFilter_next h with ⟨hf, h⟩ | ⟨hf, ha, h⟩ | ⟨hf, ha, h⟩
  · exact .refused .eFaulted (by decide) (by decide) (.inl (firstCheck_faulted rfl hf)) h
  · exact .refused .eState (by decide) (by decide) (.inl (firstCheck_state rfl hf (if_pos ha))) h
  · have hs : stateCheck (.config hc l2) s = none := if_neg (by simp [ha])
    have hc := firstCheck_operand (i := .config hc l2) rfl hf hs
    split at h
    · next hcap =>
      cases h; exact .refused .eInval (by decide) (by decide) (.inl (by rw [hc, operandCheck, hcap])) rfl
    · next hcap =>
      cases h; exact .refused .e2Big (by decide) (by decide) (.inl (by rw [hc, operandCheck, hcap])) rfl
    · next size hcap =>
      split at h
      · next hbig =>
        cases h
        exact .refused .eOom (by decide) (by decide) (.inl (by rw [hc, operandCheck, hcap]; exact if_pos hbig)) rfl
      · next hfit => cases h; exact .config _ _ size rfl hf ha hcap (by omega) rfl

theorem execRelease_next {s t : State} (h : execRelease s = .next t) : Answered .release s t := by
  rcases withFilter_next h with ⟨hf, h⟩ | ⟨hf, ha, h⟩ | ⟨hf, ha, h⟩
  · exact .refused .eFaulted (by decide) (by decide) (.inl (firstCheck_faulted rfl hf)) h
  · exact .refused .eState (by decide) (by decide) (.inl (firstCheck_state rfl hf (if_neg (by simp [ha])))) h
  · cases h; exact .release rfl hf ha rfl

theorem execRdreg_next {n : Byte} {s t : State} (h : execRdreg n s = .next t) : Answered (.rdreg n) s t := by
  unfold execRdreg at h
  split at h
  · cases h; exact .read _ rfl rfl
  · next hn =>
    cases h
    refine .refused .eIllegal (by decide) (by decide) (.inr ⟨rfl, ?_⟩) rfl
    have key : ∀ m : Byte, controlReg? m = none → (Instr.rdreg m).wf = false := by decide
    exact key n hn

theorem execSreset_next {s t : State} (h : execSreset s = .next t) : Answered .sreset s t := by
  cases h; exact .sreset rfl rfl

theorem unlessOutOfRange_next {op : Byte} {off : U64} {s t : State} {run : Result}
    (h : unlessOutOfRange op off s run = .next t) :
    (s.bufBytes ≤ off.toNat ∧ t = s.push ⟨.eRange, op, 0⟩) ∨ (off.toNat < s.bufBytes ∧ run = .next t) := by
  unfold unlessOutOfRange at h
  split at h
  · next hr => cases h; exact .inl ⟨hr, rfl⟩
  · next hr => exact .inr ⟨by omega, h⟩

theorem execBufrd_next {off : U64} {s t : State} (h : execBufrd off s = .next t) : Answered (.bufrd off) s t := by
  rcases withFilter_next h with ⟨hf, h⟩ | ⟨hf, ha, h⟩ | ⟨hf, ha, h⟩
  · exact .refused .eFaulted (by decide) (by decide) (.inl (firstCheck_faulted rfl hf)) h
  · exact .refused .eState (by decide) (by decide) (.inl (firstCheck_state rfl hf (if_neg (by simp [ha])))) h
  · rcases unlessOutOfRange_next h with ⟨hr, h⟩ | ⟨_, h⟩
    · exact .refused .eRange (by decide) (by decide)
        (.inl ((firstCheck_operand (i := .bufrd off) rfl hf (if_pos ha)).trans (if_pos hr))) h
    · split at h
      · cases h; exact .read _ rfl rfl
      · cases h

theorem execBufwr_next {off : U64} {byte : Byte} {s t : State} (h : execBufwr off byte s = .next t) :
    Answered (.bufwr off byte) s t := by
  rcases withFilter_next h with ⟨hf, h⟩ | ⟨hf, ha, h⟩ | ⟨hf, ha, h⟩
  · exact .refused .eFaulted (by decide) (by decide) (.inl (firstCheck_faulted rfl hf)) h
  · exact .refused .eState (by decide) (by decide) (.inl (firstCheck_state rfl hf (if_neg (by simp [ha])))) h
  · rcases unlessOutOfRange_next h with ⟨hr, h⟩ | ⟨_, h⟩
    · exact .refused .eRange (by decide) (by decide)
        (.inl ((firstCheck_operand (i := .bufwr off byte) rfl hf (if_pos ha)).trans (if_pos hr))) h
    · split at h
      · next s' hs' =>
        cases h
        obtain ⟨hin, rfl⟩ := State.memWrite_eq_some.1 hs'
        exact .bufwr off byte rfl hf ha hin rfl
      · cases h

theorem execHasheval_next {k : U64} {dg : Digest} {s t : State} (h : execHasheval k dg s = .next t) :
    Answered (.hasheval k dg) s t := by
  rcases withFilter_next h with ⟨hf, h⟩ | ⟨hf, ha, h⟩ | ⟨hf, ha, h⟩
  · exact .refused .eFaulted (by decide) (by decide) (.inl (firstCheck_faulted rfl hf)) h
  · exact .refused .eState (by decide) (by decide) (.inl (firstCheck_state rfl hf (if_neg (by simp [ha])))) h
  · split at h
    · next hr =>
      cases h
      exact .refused .eRange (by decide) (by decide)
        (.inl ((firstCheck_operand (i := .hasheval k dg) rfl hf (if_pos ha)).trans (if_pos hr))) rfl
    · next hk =>
      rcases Sweep.finish_next h with ⟨p, _, h⟩ | ⟨off, hoff, h⟩
      · cases h; exact .read _ rfl rfl
      · exact .tableFault k.toNat off dg (.inl ⟨k, rfl, rfl⟩) hf ha (by omega) hoff h

theorem execInsert_next {dg : Digest} {s t : State} (h : execInsert dg s = .next t) : Answered (.insert dg) s t := by
  rcases withFilter_next h with ⟨hf, h⟩ | ⟨hf, ha, h⟩ | ⟨hf, ha, h⟩
  · exact .refused .eFaulted (by decide) (by decide) (.inl (firstCheck_faulted rfl hf)) h
  · exact .refused .eState (by decide) (by decide) (.inl (firstCheck_state rfl hf (if_neg (by simp [ha])))) h
  · rcases Sweep.finish_next h with ⟨ps, hps, h⟩ | ⟨off, hoff, h⟩
    · rcases Sweep.finish_next h with ⟨s', hs', h⟩ | ⟨off, hoff, _⟩
      · cases h; exact .insert dg ps s' rfl hf ha hps hs' rfl
      · exact absurd hoff (setFlags_ne_tableFault _ _ _)
    · obtain ⟨k, hk, hfault, hbefore⟩ := positionsUpTo_eq_tableFault.1 hoff
      exact .tableFault k off dg (.inr (.inl ⟨rfl, hbefore⟩)) hf ha hk hfault h

theorem execQuery_next {dg : Digest} {s t : State} (h : execQuery dg s = .next t) : Answered (.query dg) s t := by
  rcases withFilter_next h with ⟨hf, h⟩ | ⟨hf, ha, h⟩ | ⟨hf, ha, h⟩
  · exact .refused .eFaulted (by decide) (by decide) (.inl (firstCheck_faulted rfl hf)) h
  · exact .refused .eState (by decide) (by decide) (.inl (firstCheck_state rfl hf (if_neg (by simp [ha])))) h
  · rcases Sweep.finish_next h with ⟨x, _, h⟩ | ⟨off, hoff, h⟩
    · cases h; exact .read _ rfl rfl
    · obtain ⟨k, hk, hfault, hbefore⟩ := queryUpTo_eq_tableFault.1 hoff
      exact .tableFault k off dg (.inr (.inr ⟨rfl, hbefore⟩)) hf ha hk hfault h

/-- Every next state of exec is one of the eight kinds of `Answered`. -/
theorem exec_next {i : Instr} {s t : State} (h : exec i s = .next t) : Answered i s t := by
  cases i with
  | validate hc l2 => exact execValidate_next h
  | config hc l2 => exact execConfig_next h
  | release => exact execRelease_next h
  | rdreg n => exact execRdreg_next h
  | sreset => exact execSreset_next h
  | bufrd off => exact execBufrd_next h
  | bufwr off byte => exact execBufwr_next h
  | hasheval k dg => exact execHasheval_next h
  | insert dg => exact execInsert_next h
  | query dg => exact execQuery_next h

/-! ### When a command ends with the effect of its own -/

/-- CONFIG with every check passed. -/
theorem execConfig_ok {s : State} {hc : U64} {l2 : Byte} {size : Nat} (hf : s.fault = false) (ha : s.active = false)
    (hcap : cap s.params hc.toNat l2.toNat = .ok size) (hfit : size ≤ s.params.memBytes) :
    execConfig hc l2 s = respond 0x02 (BitVec.ofNat 64 size) (s.configured hc l2 size) := by
  unfold execConfig
  rw [withoutFilter_of hf ha, hcap]
  exact if_neg (by omega)

/-- BUFRD of a byte of the buffer. -/
theorem execBufrd_ok {s : State} {off : U64} {b : Byte} (hf : s.fault = false) (ha : s.active = true)
    (hb : s.memRead off.toNat = some b) : execBufrd off s = respond 0x10 (b.setWidth 64) s := by
  have hin := State.inBuffer_iff.1 (State.memRead_eq_some.1 hb).1
  unfold execBufrd unlessOutOfRange
  rw [withFilter_of hf ha, if_neg (by omega), hb]
  rfl

/-- BUFWR of a byte of the buffer. -/
theorem execBufwr_ok {s : State} {off : U64} (byte : Byte) (hf : s.fault = false) (ha : s.active = true)
    (hin : s.inBuffer off.toNat = true) :
    execBufwr off byte s = respond 0x11 0 { s with mem := Memory.write s.mem off.toNat byte } := by
  have := State.inBuffer_iff.1 hin
  unfold execBufwr unlessOutOfRange
  rw [withFilter_of hf ha, if_neg (by omega), State.memWrite_of_inBuffer hin]
  rfl

/-- HASHEVAL of a function of the filter. -/
theorem execHasheval_inRange {s : State} {k : U64} (dg : Digest) (hf : s.fault = false) (ha : s.active = true)
    (hk : k.toNat < s.hashCount.toNat) :
    execHasheval k dg s =
      (eval s k.toNat dg).finish 0x20 s fun p => respond 0x20 (BitVec.ofNat 64 p) s := by
  unfold execHasheval
  rw [withFilter_of hf ha, if_neg (by omega)]
  rfl

/-- INSERT on a filter. -/
theorem execInsert_active {s : State} (dg : Digest) (hf : s.fault = false) (ha : s.active = true) :
    execInsert dg s = (positionsUpTo s dg s.hashCount.toNat).finish 0x21 s fun ps =>
      (setFlags ps s).finish 0x21 s fun s' => respond 0x21 0 s' := by
  unfold execInsert
  rw [withFilter_of hf ha]
  rfl

/-- QUERY on a filter. -/
theorem execQuery_active {s : State} (dg : Digest) (hf : s.fault = false) (ha : s.active = true) :
    execQuery dg s = (queryUpTo s dg s.hashCount.toNat).finish 0x22 s fun present =>
      respond 0x22 (BitVec.setWidth 64 (BitVec.ofBool present)) s := by
  unfold execQuery
  rw [withFilter_of hf ha]
  rfl

end Sys2Proof.Machine
end

