-- ==== Sys2Proof/Laws/Insert.lean ====
section
/-! SUPPORT. INSERT as a whole (43_engine.md R153): what it sets, that it leaves every stored index and so every
evaluation alone, and the three ways it can end in a state that meets the invariant. -/

namespace Sys2Proof.Machine

/-! ### The positions phase 1 finds -/

/-- Phase 1 succeeds when every evaluation does. -/
theorem positionsUpTo_of_values {s : State} {d : Digest} {n : Nat}
    (h : ∀ k, k < n → ∃ p, eval s k d = .value p) : ∃ ps, positionsUpTo s d n = .value ps := by
  induction n with
  | zero => exact ⟨[], rfl⟩
  | succ n ih =>
    obtain ⟨ps, hps⟩ := ih fun k hk => h k (by omega)
    obtain ⟨p, hp⟩ := h n (by omega)
    exact ⟨ps ++ [p], by rw [positionsUpTo, hps, Sweep.bind_value, hp]; rfl⟩

/-- The positions are the hash values of the functions. -/
theorem mem_positions {s : State} {d : Digest} {n : Nat} {ps : List Nat} (h : positionsUpTo s d n = .value ps)
    (p : Nat) : p ∈ ps ↔ ∃ k, k < n ∧ eval s k d = .value p := by
  obtain ⟨hl, h⟩ := positionsUpTo_eq_value.1 h
  constructor
  · intro hp
    obtain ⟨k, hk, rfl⟩ := List.mem_iff_getElem.1 hp
    obtain ⟨q, hq, he⟩ := h k (by omega)
    rw [List.getElem?_eq_getElem hk] at hq; cases hq
    exact ⟨k, by omega, he⟩
  · rintro ⟨k, hk, he⟩
    obtain ⟨q, hq, he'⟩ := h k hk
    rw [he] at he'; cases he'
    exact List.mem_of_getElem? hq

/-! ### What INSERT sets -/

/-- `t` has the flags the functions of `s` select for `d` set, and every other bit of the buffer as in `s`. -/
def SetsFlags (s t : State) (d : Digest) : Prop :=
  (∀ off b, s.memRead off = some b → ∃ b', t.memRead off = some b' ∧
    ∀ j, j < 8 → (b'.getLsbD j = true ↔ b.getLsbD j = true ∨
      ∃ k p, k < s.hashCount.toNat ∧ eval s k d = .value p ∧ off = flagOffset s p ∧ j = p % 8)) ∧
  (∀ off, s.memRead off = none → t.memRead off = none)

/-- What the two phases of INSERT do: memory alone changes, it keeps its form, and exactly the selected flags are
set. -/
theorem setFlags_setsFlags {s t : State} {d : Digest} {ps : List Nat} (hw : Memory.wf s.mem = true)
    (hps : positionsUpTo s d s.hashCount.toNat = .value ps) (ht : setFlags ps s = .value t) :
    t = { s with mem := t.mem } ∧ Memory.wf t.mem = true ∧ (∀ c ∈ t.mem, c ∈ s.mem ∨ s.inBuffer c.1 = true) ∧
      SetsFlags s t d := by
  obtain ⟨h1, h2, h3, h4⟩ := setFlags_value hw ht
  refine ⟨h1, h2, h3, fun off b hb => ?_, fun off ho => ?_⟩
  · have hs := (h4 off).1
    rw [hb] at hs
    obtain ⟨b', hb'⟩ := Option.isSome_iff_exists.1 hs
    refine ⟨b', hb', fun j hj => ((h4 off).2 b b' hb hb' j hj).trans (or_congr_right ?_)⟩
    constructor
    · rintro ⟨p, hp, h⟩
      obtain ⟨k, hk, he⟩ := (mem_positions hps p).1 hp
      exact ⟨k, p, hk, he, h⟩
    · rintro ⟨k, p, hk, he, h⟩
      exact ⟨p, (mem_positions hps p).2 ⟨k, hk, he⟩, h⟩
  · have hs := (h4 off).1
    rw [ho] at hs
    simpa using hs

/-- Phase 2 changes nothing but memory. -/
theorem setFlags_mem {ps : List Nat} {s t : State} (h : setFlags ps s = .value t) : ∃ m, t = { s with mem := m } := by
  induction ps generalizing s with
  | nil => cases h; exact ⟨_, rfl⟩
  | cons p ps ih =>
    rw [setFlags] at h
    obtain ⟨u, hu, h⟩ := Sweep.bind_eq_value.1 h
    obtain ⟨_, rfl⟩ := setFlag_eq_value.1 hu
    obtain ⟨m, rfl⟩ := ih h
    exact ⟨m, rfl⟩

/-! ### What INSERT leaves alone -/

/-- An evaluation does not look at the channels. -/
theorem eval_push (s : State) (r : Response) (k : Nat) (d : Digest) : eval (s.push r) k d = eval s k d :=
  eval_congr (s := s) (t := s.push r) rfl fun _ _ => rfl

/-- Setting flags leaves every evaluation, of any digest, alone: the flags lie behind the tables. -/
theorem eval_of_setsFlags {s t : State} {d : Digest} (ha : s.active = true) (ht : t = { s with mem := t.mem })
    (hb : SetsFlags s t d) {k : Nat} (hk : k < s.hashCount.toNat) (d' : Digest) : eval t k d' = eval s k d' := by
  refine eval_congr (by rw [ht]) fun i hi => ?_
  have ho := tableOffset_lt ha hk hi
  cases hr : s.memRead (tableOffset s k i) with
  | none => exact hb.2 _ hr
  | some b =>
    obtain ⟨b', hb', hbits⟩ := hb.1 _ b hr
    rw [hb']
    congr 1
    refine BitVec.eq_of_getLsbD_eq fun j hj => Bool.eq_iff_iff.2 ((hbits j hj).trans (or_iff_left ?_))
    rintro ⟨_, p, _, _, h, _⟩
    unfold flagOffset at h
    omega

/-! ### Whether a function meets a table fault does not depend on the digest -/

theorem eval_tableFault_digest (s : State) (d d' : Digest) (k off : Nat) :
    eval s k d = .tableFault off ↔ eval s k d' = .tableFault off := by
  unfold eval; rw [evalUpTo_eq_tableFault, evalUpTo_eq_tableFault]

theorem State.Inv.eval_value_digest {s : State} (h : s.Inv) (ha : s.active = true) {d : Digest} (d' : Digest)
    {k : Nat} (hk : k < s.hashCount.toNat) (hv : ∃ p, eval s k d = .value p) : ∃ p, eval s k d' = .value p := by
  rcases h.eval_total ha hk d' with h' | ⟨off, h'⟩
  · exact h'
  · obtain ⟨p, hp⟩ := hv
    rw [(eval_tableFault_digest s d d' k off).2 h'] at hp; cases hp

/-! ### The ways INSERT can end -/

/-- INSERT whose evaluations all succeed runs to its end. -/
theorem State.Inv.execInsert_values {s : State} (h : s.Inv) (ha : s.active = true) (hf : s.fault = false)
    {d : Digest} (hv : ∀ k, k < s.hashCount.toNat → ∃ p, eval s k d = .value p) :
    ∃ ps t, positionsUpTo s d s.hashCount.toNat = .value ps ∧ setFlags ps s = .value t ∧
      execInsert d s = .next (t.push ⟨.ok, 0x21, 0⟩) := by
  obtain ⟨ps, hps⟩ := positionsUpTo_of_values hv
  obtain ⟨t, ht⟩ := setFlags_total (ps := ps) (s := s) fun p hp => by
    obtain ⟨k, _, he⟩ := (mem_positions hps p).1 hp
    exact h.inBuffer (flagOffset_lt ha (eval_lt he))
  refine ⟨ps, t, hps, ht, (execInsert_active d hf ha).trans ?_⟩
  rw [hps]
  dsimp only [Sweep.finish]
  rw [ht]
  rfl

/-- INSERT takes the table fault of the first function that meets one. -/
theorem execInsert_tableFault {s : State} (ha : s.active = true) (hf : s.fault = false) {d : Digest} {k off : Nat}
    (hk : k < s.hashCount.toNat) (he : eval s k d = .tableFault off)
    (hb : ∀ j, j < k → ∃ p, eval s j d = .value p) :
    execInsert d s = .next ((s.faultedAt off).push ⟨.eTable, 0x21, 0⟩) := by
  refine (execInsert_active d hf ha).trans ?_
  rw [positionsUpTo_eq_tableFault.2 ⟨k, hk, he, hb⟩]
  rfl

/-- In a state that meets the invariant, INSERT is refused, meets a table fault, or evaluates every function. -/
theorem State.Inv.insert_cases {s : State} (h : s.Inv) (d : Digest) :
    (∃ e, firstCheck (.insert d) s = some e) ∨
    (s.fault = false ∧ s.active = true ∧ ∃ k off, k < s.hashCount.toNat ∧ eval s k d = .tableFault off ∧
      ∀ j, j < k → ∃ p, eval s j d = .value p) ∨
    (s.fault = false ∧ s.active = true ∧ ∀ k, k < s.hashCount.toNat → ∃ p, eval s k d = .value p) := by
  cases hf : s.fault with
  | true => exact .inl ⟨_, firstCheck_faulted rfl hf⟩
  | false =>
    cases ha : s.active with
    | false => exact .inl ⟨_, firstCheck_state rfl hf (if_neg (by simp [ha]))⟩
    | true =>
      refine .inr ?_
      cases hp : positionsUpTo s d s.hashCount.toNat with
      | value ps =>
        exact .inr ⟨rfl, rfl, fun k hk =>
          let ⟨p, _, he⟩ := (positionsUpTo_eq_value.1 hp).2 k hk
          ⟨p, he⟩⟩
      | tableFault off =>
        obtain ⟨k, hk, he, hb⟩ := positionsUpTo_eq_tableFault.1 hp
        exact .inl ⟨rfl, rfl, k, off, hk, he, hb⟩
      | outside off =>
        refine absurd hp (positionsUpTo_ne_outside fun k hk o ho => ?_)
        rcases h.eval_total ha hk d with ⟨p, hv⟩ | ⟨x, hv⟩ <;> rw [hv] at ho <;> cases ho

end Sys2Proof.Machine
end

