-- ==== Sys2Proof/Laws/Lanes.lean ====
section
/-! SUPPORT. The parallel lookup, piece by piece: what lanes put together in ascending order is what the loops
find (43_engine.md R156). -/

namespace Sys2Proof.Machine

theorem Sweep.bind_return {α : Type} (r : Sweep α) : (r.bind fun x => .value x) = r := by cases r <;> rfl

/-- Merging two groups, one after the other. -/
theorem mergeLanes_append (l l' : List (Sweep Nat)) :
    mergeLanes (l ++ l') = (mergeLanes l).bind fun ps => (mergeLanes l').bind fun qs => .value (ps ++ qs) := by
  induction l with
  | nil => simp only [List.nil_append, mergeLanes, Sweep.bind_value]; exact (Sweep.bind_return _).symm
  | cons r rs ih => simp only [List.cons_append, mergeLanes, ih, Sweep.bind_assoc, Sweep.bind_value]

theorem mergeLanes_length {l : List (Sweep Nat)} {ps : List Nat} (h : mergeLanes l = .value ps) :
    ps.length = l.length := by
  induction l generalizing ps with
  | nil => cases h; rfl
  | cons r rs ih =>
    rw [mergeLanes] at h
    obtain ⟨p, _, h⟩ := Sweep.bind_eq_value.1 h
    obtain ⟨qs, hq, h⟩ := Sweep.bind_eq_value.1 h
    cases h; simp [ih hq]

theorem packBits_append (d : Digest) (l : List Nat) (x : Nat) :
    packBits d (l ++ [x]) = packBits d l + digestBit d x * 2 ^ l.length := by
  induction l with
  | nil => simp [packBits]
  | cons y ys ih => simp only [List.cons_append, packBits, ih, List.length_cons, pow_succ]; ring

/-- All positions of a run at once give what Eval's loop gives. -/
theorem evalLanes_eq (s : State) (k : Nat) (d : Digest) : evalLanes s k d = eval s k d := by
  unfold evalLanes eval
  generalize s.log2Bits.toNat = n
  induction n with
  | zero => rfl
  | succ n ih =>
    rw [List.range_succ, List.map_append, mergeLanes_append, evalUpTo, ← ih]
    simp only [Sweep.bind_assoc, Sweep.bind_value, List.map_cons, List.map_nil, mergeLanes]
    cases hm : mergeLanes ((List.range n).map fun i => readIndex s k i) with
    | value ps =>
      have hl := mergeLanes_length hm
      simp only [List.length_map, List.length_range] at hl
      simp only [Sweep.bind_value, packBits_append, hl]
    | tableFault o => rfl
    | outside o => rfl

/-- Phase 1 goes on by a group of lanes. -/
theorem positionsUpTo_group (s : State) (d : Digest) (k n : Nat) :
    ((positionsUpTo s d k).bind fun ps => (mergeLanes (laneGroup s d k n)).bind fun qs => .value (ps ++ qs)) =
      positionsUpTo s d (k + n) := by
  induction n with
  | zero =>
    simp only [laneGroup, List.range_zero, List.map_nil, mergeLanes, Sweep.bind_value, List.append_nil, Nat.add_zero]
    exact Sweep.bind_return _
  | succ n ih =>
    rw [← Nat.add_assoc, positionsUpTo, ← ih]
    unfold laneGroup
    rw [List.range_succ, List.map_append, mergeLanes_append]
    simp only [Sweep.bind_assoc, Sweep.bind_value, List.map_cons, List.map_nil, mergeLanes, List.append_assoc,
      evalLanes_eq]

theorem scanLanes_append (s : State) (l l' : List (Sweep Nat)) :
    scanLanes s (l ++ l') = (scanLanes s l).bind fun x => if x then scanLanes s l' else .value false := by
  induction l with
  | nil => rfl
  | cons r rs ih =>
    simp only [List.cons_append, scanLanes, Sweep.bind_assoc]
    congr 1; funext p; congr 1; funext x
    cases x
    · rfl
    · simp only [if_true, ih]

/-- QUERY goes on by a group of lanes. -/
theorem queryUpTo_group (s : State) (d : Digest) (k n : Nat) :
    ((queryUpTo s d k).bind fun present =>
      if present then scanLanes s (laneGroup s d k n) else .value false) = queryUpTo s d (k + n) := by
  induction n with
  | zero =>
    simp only [laneGroup, List.range_zero, List.map_nil, scanLanes, Nat.add_zero]
    conv_rhs => rw [← Sweep.bind_return (queryUpTo s d k)]
    congr 1; funext x; cases x <;> rfl
  | succ n ih =>
    rw [← Nat.add_assoc, queryUpTo, ← ih]
    unfold laneGroup
    rw [List.range_succ, List.map_append, scanLanes_append, Sweep.bind_assoc]
    congr 1; funext x; cases x
    · rfl
    · simp only [if_true]
      congr 1; funext y; cases y
      · rfl
      · simp only [if_true, List.map_cons, List.map_nil, scanLanes, selectedFlag, evalLanes_eq]
        conv_rhs => rw [← Sweep.bind_return (Sweep.bind _ _)]
        congr 1; funext z; cases z <;> rfl

/-- The functions of the first groups, and those of one group more. -/
theorem group_bound (h l g : Nat) : min h (g * l) + min l (h - g * l) = min h ((g + 1) * l) := by
  rw [Nat.succ_mul]; omega

/-- The groups cover all functions. -/
theorem groupCount_covers {s : State} (h : 1 ≤ s.params.lanes) :
    min s.hashCount.toNat (groupCount s * s.params.lanes) = s.hashCount.toNat := by
  apply min_eq_left
  unfold groupCount
  have h1 := Nat.div_add_mod (s.hashCount.toNat + s.params.lanes - 1) s.params.lanes
  have h2 := Nat.mod_lt (s.hashCount.toNat + s.params.lanes - 1) (show 0 < s.params.lanes by omega)
  rw [mul_comm] at h1
  generalize (s.hashCount.toNat + s.params.lanes - 1) / s.params.lanes * s.params.lanes = q at *
  omega

end Sys2Proof.Machine
end

