-- ==== Sys2Proof/Laws/PerInstr.lean ====
section
/-! SUPPORT. What holds of every command as syntax, one lemma per constructor: its word carries its opcode, its
reserved field `z` is 0 (30_encoding.md R82, R83). -/

namespace Sys2Proof.Laws.EncodedFields

/-- The word of a command has the command's opcode in `op` and 0 in `z` (30_encoding.md R82, R88, R91). -/
def Statement (i : Instr) : Prop := opField (encode i) = i.opcode ∧ zField (encode i) = 0#16

theorem validate (hc : U64) (l2 : Byte) : Statement (.validate hc l2) :=
  ⟨opField_pack _ _ _ _, zField_pack _ _ _ _⟩

theorem config (hc : U64) (l2 : Byte) : Statement (.config hc l2) :=
  ⟨opField_pack _ _ _ _, zField_pack _ _ _ _⟩

theorem release : Statement .release := ⟨opField_pack _ _ _ _, zField_pack _ _ _ _⟩

theorem rdreg (n : Byte) : Statement (.rdreg n) := ⟨opField_pack _ _ _ _, zField_pack _ _ _ _⟩

theorem sreset : Statement .sreset := ⟨opField_pack _ _ _ _, zField_pack _ _ _ _⟩

theorem bufrd (off : U64) : Statement (.bufrd off) := ⟨opField_pack _ _ _ _, zField_pack _ _ _ _⟩

theorem bufwr (off : U64) (byte : Byte) : Statement (.bufwr off byte) :=
  ⟨opField_pack _ _ _ _, zField_pack _ _ _ _⟩

theorem hasheval (k : U64) (dg : Digest) : Statement (.hasheval k dg) :=
  ⟨opField_pack _ _ _ _, zField_pack _ _ _ _⟩

theorem insert (dg : Digest) : Statement (.insert dg) := ⟨opField_pack _ _ _ _, zField_pack _ _ _ _⟩

theorem query (dg : Digest) : Statement (.query dg) := ⟨opField_pack _ _ _ _, zField_pack _ _ _ _⟩

end Sys2Proof.Laws.EncodedFields
end

