-- ==== Sys2Proof/Tests/Slice0.lean ====
section
/-! SUPPORT. The model's own tests. Expected results come from the spec's encodings (30_encoding.md R100), its worked
examples and its test vectors (95_test_vectors.md; the vector is named in each comment). The second half shows, for every
statement with hypotheses, a state and operands that meet them. -/

namespace Sys2Proof.Machine.Tests

/-! ### Small states -/

/-- An engine with a filter of `h` functions and `2^l` flags, its buffer as listed. -/
def filter (h : U64) (l : Byte) (mem : List Host.Cell) : State :=
  { State.reset with active := true, hashCount := h, log2Bits := l, mem := mem }

/-- The state with a word on the command channel. -/
def offering (w : CmdWord) (s : State) : State := { s with cmds := [w] }

/-- The running example, 43_engine.md R160: H = 2, L = 4, tables 0 8 159 3 and 7 7 1 152, all flags 0. -/
def running : State := filter 2 4 [(1, 8), (2, 159), (3, 3), (4, 7), (5, 7), (6, 1), (7, 152)]

/-- The running example after INSERT DA: flags 7 and 3 set (vector E5). -/
def inserted : State := filter 2 4 [(1, 8), (2, 159), (3, 3), (4, 7), (5, 7), (6, 1), (7, 152), (8, 0x88)]

/-- The corrupt filter of vector F3: H = 2, L = 3, buffer 05 06 07 09 A0 FF 00. -/
def corrupt : State := filter 2 3 [(0, 5), (1, 6), (2, 7), (3, 9), (4, 160), (5, 255)]

/-- The same after its table fault at offset 4 (vector F4). -/
def faulted : State := { corrupt with fault := true, faultAddr := 4 }

/-- The filter of vector F5: function 0 selects a set flag, run 1 is bad. -/
def corruptSet : State := filter 2 3 [(4, 200), (5, 161), (6, 0xFF)]

/-- The smallest filter (vector E16): H = 3, L = 0, one byte. -/
def smallest : State := filter 3 0 []

/-- The filter of vector E22: H = 1, L = 2, non-flag bits of the bit-vector byte set. -/
def short : State := filter 1 2 [(0, 10), (1, 20), (2, 0xF0)]

/-- The largest `log2_bits`: after CONFIG 1, 64 in an engine with 2^61 + 64 bytes (95_test_vectors.md 2.2). -/
def widest : State :=
  { filter 1 64 [] with params := { sizeW := .w64, memBytes := 2 ^ 61 + 64, lanes := 4 } }

/-- An EMPTY engine of the 32-bit kind. -/
def narrow : State := State.hardReset { sizeW := .w32, memBytes := 65536, lanes := 1 }

def da : Digest := 0x8000000000000000000000000000000000000181
def dc : Digest := 0x8000000000000000000000000000000000FF0181
def df : Digest := BitVec.allOnes 160

/-- Bytes of the buffer after a command. -/
def bytesAfter (r : Result) (offs : List Nat) : List (Option Byte) :=
  match r with
  | .next t => offs.map t.memRead
  | .fault _ => []
  | .refused _ => []

/-- `active`, `fault` and `fault_addr` after a command. -/
def flagsAfter (r : Result) : Option (Bool × Bool × U64) :=
  match r with
  | .next t => some (t.active, t.fault, t.faultAddr)
  | .fault _ => none
  | .refused _ => none

/-! ### Well-formedness and encodings -/

theorem test_wf_refuses_reserved_register : (Instr.rdreg 0x0A).wf = false := by decide
theorem test_wf_last_register : (Instr.rdreg 0x09).wf = true := by decide

-- the words of R100 and of 95_test_vectors.md, written out
theorem test_decode_validate :
    decode 0x010F000000000000000000050000000000000000000000000000000000000000 = .ok (.validate 5 15) := by decide
theorem test_decode_config :
    decode 0x02C8000000000000000000000000000000000000000000000000000000000000 = .ok (.config 0 200) := by decide
theorem test_decode_release :
    decode 0x0300000000000000000000000000000000000000000000000000000000000000 = .ok .release := by decide
theorem test_decode_rdreg :
    decode 0x0409000000000000000000000000000000000000000000000000000000000000 = .ok (.rdreg 9) := by decide
theorem test_decode_sreset :
    decode 0x0500000000000000000000000000000000000000000000000000000000000000 = .ok .sreset := by decide
theorem test_decode_bufrd :
    decode 0x10000000FFFFFFFFFFFFFFFF0000000000000000000000000000000000000000 =
      .ok (.bufrd 0xFFFFFFFFFFFFFFFF) := by decide
theorem test_decode_bufwr :
    decode 0x119F000000000000000000020000000000000000000000000000000000000000 = .ok (.bufwr 2 159) := by decide
theorem test_decode_hasheval :
    decode 0x2000000000000000000000018000000000000000000000000000000000000181 = .ok (.hasheval 1 da) := by decide
theorem test_decode_insert :
    decode 0x2100000000000000000000008000000000000000000000000000000000000181 = .ok (.insert da) := by decide
theorem test_decode_query :
    decode 0x2200000000000000000000008000000000000000000000000000000000FF0181 = .ok (.query dc) := by decide

-- vectors I2, I5, I6, I7: the word's reason
theorem test_illegal_words :
    decode 0xFFFFFFFFFFFFFFFFFFFFFFFFFFFFFFFFFFFFFFFFFFFFFFFFFFFFFFFFFFFFFFFF = .error (.nonzeroReserved 0xFFFF) ∧
    decode 0x0600000000000000000000000000000000000000000000000000000000000000 = .error (.undefinedOp 6) ∧
    decode 0x010F000000000000000000050000000000000000000000000000000000000001 = .error (.nonzeroUnused 1) ∧
    decode 0x040A000000000000000000000000000000000000000000000000000000000000 =
      .error (.reservedRegister 10) := by decide

-- 30_encoding.md R100: transfer bytes of VALIDATE 5, 15
theorem test_transfer_bytes :
    CmdWord.toBytes 0x010F000000000000000000050000000000000000000000000000000000000000 =
      List.replicate 20 0 ++ [5, 0, 0, 0, 0, 0, 0, 0, 0, 0, 0x0F, 0x01] := by decide

-- the table's word of BUFWR, as the host numbers it
theorem test_decode_table_word :
    decodeTableWord 256 0x1100000000000000000000000000000000000000000000000000000000000000 =
      some (.bufwr 0 0) := by decide

-- program P1: RUN 1, 7, 7, 1, 152 with L = 4
theorem test_run_expands :
    asmCommands [("L", 4)] (.run (.num 1) [.num 7, .num 7, .num 1, .num 152]) =
      some [.bufwr 4 7, .bufwr 5 7, .bufwr 6 1, .bufwr 7 152] := by decide

-- program P1, its first lines; L must be defined, and RUN's list must have L entries
theorem test_text_of_p1 :
    assembleText "        .equ L, 4\n        CONFIG   2, L\n        RUN      0, 0, 8, 159, 3   ; run 0".toList =
      some [.config 2 4, .bufwr 0 0, .bufwr 1 8, .bufwr 2 159, .bufwr 3 3] ∧
    assembleText "RUN 0, 0, 8, 159, 3".toList = none ∧
    assembleText ".equ L, 4\nRUN 0, 0, 8, 159".toList = none := by decide

-- R98: an operand must fit its field
theorem test_text_operand_fits : assembleText "BUFWR 0, 256".toList = none ∧
    assembleText "BUFWR 2*(1+0x1), 255".toList = some [.bufwr 4 255] ∧
    assembleText "BUFWR 0x9_F0, 0xaB".toList = some [.bufwr 2544 171] := by decide

/-! ### One step of each command -/

-- V2
theorem test_validate_hash_count_first : answerOf (exec (.validate 0 200) State.reset) = some 0x02010000000000000000 := by
  decide
-- V23: SIZE_W = 32, step 5
theorem test_validate_narrow : answerOf (exec (.validate 0x7FFFFFF 32) narrow) = some 0x03010000000000000000 := by
  decide
-- L1
theorem test_config : answerOf (exec (.config 2 4) State.reset) = some 0x0002000000000000000A ∧
    bytesAfter (exec (.config 2 4) State.reset) [0, 9, 10] = [some 0, some 0, none] := by decide
-- L3
theorem test_config_oom : answerOf (exec (.config 1 20) State.reset) = some 0x01020000000000000000 := by decide
-- L10
theorem test_release : flagsAfter (exec .release running) = some (false, false, 0) ∧
    answerOf (exec .release running) = some 0x00030000000000000000 := by decide
-- L11, L12
theorem test_rdreg_cap : answerOf (exec (.rdreg 0) State.reset) = some 0x000400000001404000A0 ∧
    answerOf (exec (.rdreg 0) narrow) = some 0x000400000001202000A0 := by decide
-- 95_test_vectors.md 2.2, the last paragraph
theorem test_rdreg_widest : answerOf (exec (.rdreg 5) widest) = some 0x00040000000000000000 ∧
    answerOf (exec (.rdreg 6) widest) = some 0x00040000000000000001 ∧
    answerOf (exec (.rdreg 7) widest) = some 0x00042000000000000040 := by decide
-- L16
theorem test_sreset_in_fault : flagsAfter (exec .sreset faulted) = some (false, false, 0) ∧
    answerOf (exec .sreset faulted) = some 0x00050000000000000000 := by decide
-- B4, B2
theorem test_bufrd : answerOf (exec (.bufrd 2) running) = some 0x0010000000000000009F ∧
    answerOf (exec (.bufrd 10) running) = some 0x12100000000000000000 := by decide
-- B6, B5
theorem test_bufwr : bytesAfter (exec (.bufwr 4 255) running) [3, 4, 5] = [some 3, some 255, some 7] ∧
    answerOf (exec (.bufwr 10 0) running) = some 0x12110000000000000000 := by decide
-- E1, E2
theorem test_hasheval : answerOf (exec (.hasheval 0 da) running) = some 0x00200000000000000007 ∧
    answerOf (exec (.hasheval 1 da) running) = some 0x00200000000000000003 := by decide
-- F2
theorem test_hasheval_fault :
    answerOf (exec (.hasheval 0 df) (filter 2 3 [(2, 160)])) = some 0x13200000000000000000 ∧
    flagsAfter (exec (.hasheval 0 df) (filter 2 3 [(2, 160)])) = some (true, true, 2) := by decide
-- E5, E23
theorem test_insert : bytesAfter (exec (.insert da) running) [7, 8, 9] = [some 152, some 0x88, some 0] ∧
    bytesAfter (exec (.insert 0x100400) short) [1, 2] = [some 20, some 0xF8] := by decide
-- F4
theorem test_insert_fault : flagsAfter (exec (.insert df) corrupt) = some (true, true, 4) ∧
    answerOf (exec (.insert df) corrupt) = some 0x13210000000000000000 := by decide
-- E6, E8 (a false positive), E4
theorem test_query : answerOf (exec (.query da) inserted) = some 0x00220000000000000001 ∧
    answerOf (exec (.query dc) inserted) = some 0x00220000000000000001 ∧
    answerOf (exec (.query da) running) = some 0x00220000000000000000 := by decide
-- F3 (short circuit), F5
theorem test_query_fault : answerOf (exec (.query df) corrupt) = some 0x00220000000000000000 ∧
    flagsAfter (exec (.query df) corruptSet) = some (true, true, 4) := by decide
-- I1 and I12 in FAULT: illegal before everything
theorem test_step_illegal :
    answerOf (step (offering 0 faulted)) = some 0x10000000000000000000 ∧
    answerOf (step (offering 0x0500000000000000000000000000000000000000000000000000000000000001 faulted)) =
      some 0x10050000000000000000 := by decide
-- P1 #12 through the channel
theorem test_step_query :
    answerOf (step (offering 0x2200000000000000000000008000000000000000000000000000000000000181 inserted)) =
      some 0x00220000000000000001 := by decide
-- the table's word of SRESET as the first command after reset
theorem test_with_fetch_word :
    answerOf (step (State.reset.withFetchWord 256
      0x0500000000000000000000000000000000000000000000000000000000000000)) = some 0x00050000000000000000 := by decide

/-! ### Hypotheses that are met -/

theorem inv_reset : State.reset.Inv :=
  { params := ⟨by decide, by decide, by decide⟩, inactive := by decide, hashCount := by decide, log2Bits := by decide,
    size := by decide, noFault := by decide, faulted := by decide, memWf := by decide, memInside := by decide }

theorem inv_narrow : narrow.Inv :=
  { params := ⟨by decide, by decide, by decide⟩, inactive := by decide, hashCount := by decide, log2Bits := by decide,
    size := by decide, noFault := by decide, faulted := by decide, memWf := by decide, memInside := by decide }

theorem inv_running : running.Inv :=
  { params := ⟨by decide, by decide, by decide⟩, inactive := by decide, hashCount := by decide, log2Bits := by decide,
    size := by decide, noFault := by decide, faulted := by decide, memWf := by decide, memInside := by decide }

theorem inv_inserted : inserted.Inv :=
  { params := ⟨by decide, by decide, by decide⟩, inactive := by decide, hashCount := by decide, log2Bits := by decide,
    size := by decide, noFault := by decide, faulted := by decide, memWf := by decide, memInside := by decide }

theorem inv_corrupt : corrupt.Inv :=
  { params := ⟨by decide, by decide, by decide⟩, inactive := by decide, hashCount := by decide, log2Bits := by decide,
    size := by decide, noFault := by decide, faulted := by decide, memWf := by decide, memInside := by decide }

theorem inv_corruptSet : corruptSet.Inv :=
  { params := ⟨by decide, by decide, by decide⟩, inactive := by decide, hashCount := by decide, log2Bits := by decide,
    size := by decide, noFault := by decide, faulted := by decide, memWf := by decide, memInside := by decide }

theorem inv_faulted : faulted.Inv :=
  { params := ⟨by decide, by decide, by decide⟩, inactive := by decide, hashCount := by decide, log2Bits := by decide,
    size := by decide, noFault := by decide, faulted := by decide, memWf := by decide, memInside := by decide }

theorem inv_smallest : smallest.Inv :=
  { params := ⟨by decide, by decide, by decide⟩, inactive := by decide, hashCount := by decide, log2Bits := by decide,
    size := by decide, noFault := by decide, faulted := by decide, memWf := by decide, memInside := by decide }

theorem inv_widest : widest.Inv :=
  { params := ⟨by decide, by decide, by decide⟩, inactive := by decide, hashCount := by decide, log2Bits := by decide,
    size := by decide, noFault := by decide, faulted := by decide, memWf := by decide, memInside := by decide }

-- StepRunsTheDecodedCommand, DecodedWordsAreEncodings
theorem met_decoded_word :
    (offering 0x0500000000000000000000000000000000000000000000000000000000000000 faulted).cmds =
      0x0500000000000000000000000000000000000000000000000000000000000000 :: [] ∧
    decode 0x0500000000000000000000000000000000000000000000000000000000000000 = .ok .sreset := by decide

-- StepAnswersIllegalWords, UndefinedOpcodesAreIllegal (in FAULT, opcode 0x23)
theorem met_illegal_word :
    (offering 0x2300000000000000000000000000000000000000000000000000000000000000 faulted).cmds =
      0x2300000000000000000000000000000000000000000000000000000000000000 :: [] ∧
    decode 0x2300000000000000000000000000000000000000000000000000000000000000 = .error (.undefinedOp 0x23) ∧
    opField 0x2300000000000000000000000000000000000000000000000000000000000000 ∉
      ([0x01, 0x02, 0x03, 0x04, 0x05, 0x10, 0x11, 0x20, 0x21, 0x22] : List Byte) := by decide

-- StepIdlesOnAnEmptyChannel
theorem met_empty_channel : State.reset.cmds = [] := by decide

-- DecodeOfEncodeIsTheCommand: the bounds of the one restricted operand, and operands with every bit set
theorem met_well_formed : (Instr.rdreg 0x00).wf = true ∧ (Instr.rdreg 0x09).wf = true ∧
    (Instr.bufwr 0xFFFFFFFFFFFFFFFF 0xFF).wf = true ∧ (Instr.hasheval 0xFFFFFFFFFFFFFFFF df).wf = true := by decide

-- NonzeroUnusedFieldsAreIllegal: a word for each clause, with one bit of the field set
theorem met_nonzero_z : zField 0x0100000100000000000000000000000000000000000000000000000000000000 ≠ 0 := by decide
theorem met_nonzero_d : opField 0x1100000000000000000000000000000000000000000000000000000000000001 ∈
    ([0x01, 0x02, 0x11] : List Byte) ∧
    dField 0x1100000000000000000000000000000000000000000000000000000000000001 ≠ 0 := by decide
theorem met_nonzero_bare : opField 0x0300000000000000000000010000000000000000000000000000000000000000 ∈
    ([0x03, 0x05] : List Byte) ∧
    aField 0x0300000000000000000000010000000000000000000000000000000000000000 ≠ 0 := by decide
theorem met_nonzero_rdreg : opField 0x0409000000000000000000010000000000000000000000000000000000000000 = 0x04 ∧
    aField 0x0409000000000000000000010000000000000000000000000000000000000000 ≠ 0 := by decide
theorem met_nonzero_bufrd : opField 0x1001000000000000000000000000000000000000000000000000000000000000 = 0x10 ∧
    bField 0x1001000000000000000000000000000000000000000000000000000000000000 ≠ 0 := by decide
theorem met_nonzero_hasheval : opField 0x2001000000000000000000000000000000000000000000000000000000000000 = 0x20 ∧
    bField 0x2001000000000000000000000000000000000000000000000000000000000000 ≠ 0 := by decide
theorem met_nonzero_digest : opField 0x2100000000000000000000010000000000000000000000000000000000000005 ∈
    ([0x21, 0x22] : List Byte) ∧
    aField 0x2100000000000000000000010000000000000000000000000000000000000005 ≠ 0 := by decide

-- ReservedRegisterNumbersAreIllegal: the lowest and the highest reserved number
theorem met_reserved_register :
    opField 0x040A000000000000000000000000000000000000000000000000000000000000 = 0x04 ∧
    0x0A ≤ (bField 0x040A000000000000000000000000000000000000000000000000000000000000).toNat ∧
    opField 0x04FF000000000000000000000000000000000000000000000000000000000000 = 0x04 ∧
    0x0A ≤ (bField 0x04FF000000000000000000000000000000000000000000000000000000000000).toNat := by decide

-- WordsTravelLeastSignificantByteFirst: the last bit of the last byte of each word
theorem met_transfer_bounds : (31 : Nat) < 32 ∧ (7 : Nat) < 8 ∧ (9 : Nat) < 10 := by decide

-- PseudoInstructionsExpand: L = 4, the last offset and the last byte value that fit, and L = 0
theorem met_assembler : List.lookup "L" [("L", (4 : Int))] = some ((4 : Nat) : Int) ∧
    List.lookup "L" [("L", (0 : Int))] = some ((0 : Nat) : Int) ∧
    (2 ^ 62 - 1) * 4 + 3 < 2 ^ 64 ∧ (255 : Nat) < 256 := by decide

-- ValidateAnswersCap: in EMPTY and in ACTIVE; a size that Cap accepts
theorem met_validate : State.reset.fault = false ∧ running.fault = false ∧ cap State.reset.params 5 15 = .ok 4171 := by
  decide

-- ConfigCreatesTheFilter: the buffer fills the memory exactly (vector L4)
theorem met_config :
    let s := State.hardReset { sizeW := .w64, memBytes := 40, lanes := 1 }
    s.fault = false ∧ s.active = false ∧ cap s.params (1 : U64).toNat (8 : Byte).toNat = .ok 40 ∧
      40 ≤ s.params.memBytes := by decide

-- FreshFilterHashesToDigestBitZero: a CONFIG that ends OK, its last offset and its last function
theorem met_fresh_filter : ∃ t, exec (.config 2 4) State.reset = .next t ∧
    t.rsps = State.reset.rsps ++ [Response.word ⟨.ok, 0x02, 10⟩] ∧ 9 < t.bufBytes ∧ 1 < (2 : U64).toNat :=
  ⟨_, rfl, by decide, by decide, by decide⟩

-- RefusedCommandsChangeNothing: BUFRD at BUF_BYTES, with its operands out of range
theorem met_refused : ∃ t, step (offering (encode (.bufrd 10)) running) = .next t ∧
    t.rsps = (offering (encode (.bufrd 10)) running).rsps ++ [Response.word ⟨.eRange, 0x10, 0⟩] ∧
    Status.eRange ≠ .ok ∧ Status.eRange ≠ .eTable := ⟨_, rfl, by decide, by decide, by decide⟩

-- FirstFailingCheckIsReported: an illegal word, each kind of failing check, and none
theorem met_checks : decode (BitVec.allOnes 256) = .error (.nonzeroReserved 0xFFFF) ∧
    firstCheck (.config 0 200) faulted = some .eFaulted ∧ firstCheck (.config 0 200) running = some .eState ∧
    firstCheck (.config 0 200) State.reset = some .eInval ∧ firstCheck (.config 1 65) State.reset = some .e2Big ∧
    firstCheck (.config 1 20) State.reset = some .eOom ∧ firstCheck (.hasheval 2 df) running = some .eRange ∧
    firstCheck (.insert df) corrupt = none ∧ firstCheck .sreset faulted = none := by decide

-- CommandsEndOnlyWithTheirStatuses
theorem met_ends : (Instr.query df).wf = true ∧ ∃ t, exec (.query df) corruptSet = .next t := ⟨by decide, _, rfl⟩

-- ReleaseDestroysTheFilter
theorem met_release : running.fault = false ∧ running.active = true ∧
    ControlReg.tableBytes ∈ [ControlReg.status, .hashCount, .log2Bits, .bitCountLo, .bitCountHi, .bufBytes, .tableBytes] := by
  decide

-- ResetAndSresetGiveTheResetState: a register that is neither constant
theorem met_reset_registers : ControlReg.faultAddr ≠ .cap ∧ ControlReg.faultAddr ≠ .memsz := by decide

-- RdregOfTheConstantAndFlagRegisters, RdregOfTheFilterRegisters: EMPTY, ACTIVE, FAULT, both widths, log2_bits = 64
theorem met_registers : State.reset.Inv ∧ narrow.Inv ∧ running.Inv ∧ faulted.Inv ∧ widest.Inv :=
  ⟨inv_reset, inv_narrow, inv_running, inv_faulted, inv_widest⟩

-- BufrdAnswersTheByte, BufwrStoresOneByte, BufferAccessHasNoSideEffect: the first and the last offset
theorem met_buffer : running.Inv ∧ running.active = true ∧ running.fault = false ∧
    (0 : U64).toNat < running.bufBytes ∧ (9 : U64).toNat < running.bufBytes ∧ running.memRead (9 : U64).toNat = some 0 :=
  ⟨inv_running, by decide, by decide, by decide, by decide, by decide⟩

-- WritesAreSeenByTheNextCommand: the last table byte, k = 1 and i = 3, on both sides of 160
theorem met_write : ∀ byte : Byte, byte = 159 ∨ byte = 160 → ∃ t, exec (.bufwr 7 byte) running = .next t ∧
    t.rsps = running.rsps ++ [Response.word ⟨.ok, 0x11, 0⟩] ∧ 1 < running.hashCount.toNat ∧
    3 < running.log2Bits.toNat ∧ (7 : U64).toNat = 1 * running.log2Bits.toNat + 3 := by
  rintro byte (rfl | rfl) <;> exact ⟨_, rfl, by decide, by decide, by decide, by decide⟩

-- EvalSelectsDigestBits: a run that evaluates and a run that faults
theorem met_eval : corrupt.Inv ∧ corrupt.active = true ∧ 0 < corrupt.hashCount.toNat ∧ 1 < corrupt.hashCount.toNat ∧
    eval corrupt 0 df = .value 7 ∧ eval corrupt 1 df = .tableFault 4 :=
  ⟨inv_corrupt, by decide, by decide, by decide, by decide, by decide⟩

-- ComputedOffsetsAreLegal: the last function, position and flag
theorem met_offsets : running.active = true ∧ 1 < running.hashCount.toNat ∧ 3 < running.log2Bits.toNat ∧
    15 < 2 ^ running.log2Bits.toNat := by decide

-- HashevalAnswersTheHashValue: the last function, and an empty run
theorem met_hasheval : running.Inv ∧ running.active = true ∧ running.fault = false ∧
    (1 : U64).toNat < running.hashCount.toNat ∧ eval running (1 : U64).toNat da = .value 3 ∧
    smallest.Inv ∧ eval smallest (2 : U64).toNat df = .value 0 :=
  ⟨inv_running, by decide, by decide, by decide, by decide, inv_smallest, by decide⟩

-- InsertSetsExactlyTheSelectedFlags
theorem met_insert : running.Inv ∧ running.active = true ∧ running.fault = false ∧
    ∀ k, k < running.hashCount.toNat → ∃ p, eval running k da = .value p := by
  refine ⟨inv_running, by decide, by decide, fun k hk => ?_⟩
  have h2 : running.hashCount.toNat = 2 := by decide
  obtain rfl | rfl : k = 0 ∨ k = 1 := by omega
  · exact ⟨7, by decide⟩
  · exact ⟨3, by decide⟩

-- InsertIsIdempotent, and the first step of NoFalseNegatives
theorem met_insert_ok : running.Inv ∧ ∃ t, exec (.insert da) running = .next t ∧
    t.rsps = running.rsps ++ [Response.word ⟨.ok, 0x21, 0⟩] := ⟨inv_running, _, rfl, by decide⟩

-- InsertsCommute: two digests with different flags
theorem met_two_inserts : running.Inv ∧ ∃ t u t' u', exec (.insert da) running = .next t ∧
    exec (.insert df) t = .next u ∧ exec (.insert df) running = .next t' ∧ exec (.insert da) t' = .next u' :=
  ⟨inv_running, _, _, _, _, rfl, rfl, rfl, rfl⟩

-- QueryAnswersWhetherEveryFlagIsSet: every flag set; the first unset flag at the last function
theorem met_query : inserted.Inv ∧ inserted.active = true ∧ inserted.fault = false ∧
    (∀ k, k < inserted.hashCount.toNat → ∃ p, eval inserted k da = .value p ∧ inserted.flag p = true) ∧
    (∃ s : State, s.Inv ∧ s.active = true ∧ s.fault = false ∧ 1 < s.hashCount.toNat ∧
      (∀ j, j < 1 → ∃ q, eval s j da = .value q ∧ s.flag q = true) ∧ eval s 1 da = .value 3 ∧ s.flag 3 = false) := by
  refine ⟨inv_inserted, by decide, by decide, fun k hk => ?_, ?_⟩
  · have h2 : inserted.hashCount.toNat = 2 := by decide
    obtain rfl | rfl : k = 0 ∨ k = 1 := by omega
    · exact ⟨7, by decide, by decide⟩
    · exact ⟨3, by decide, by decide⟩
  · refine ⟨filter 2 4 [(1, 8), (2, 159), (3, 3), (4, 7), (5, 7), (6, 1), (7, 152), (8, 0x80)], ?_, by decide, by decide,
      by decide, fun j hj => ?_, by decide, by decide⟩
    · exact { params := ⟨by decide, by decide, by decide⟩, inactive := by decide, hashCount := by decide,
              log2Bits := by decide, size := by decide, noFault := by decide, faulted := by decide, memWf := by decide,
              memInside := by decide }
    · obtain rfl : j = 0 := by omega
      exact ⟨7, by decide, by decide⟩

-- TableFaultIsTakenExactlyWhen: HASHEVAL, INSERT and QUERY that meet the fault, and a QUERY that does not
theorem met_table_fault : corrupt.Inv ∧ corruptSet.Inv ∧ corruptSet.active = true ∧ corruptSet.fault = false ∧
    (1 : U64).toNat < corruptSet.hashCount.toNat ∧ eval corruptSet (1 : U64).toNat df = .tableFault 4 ∧
    (∀ j, j < 1 → ∃ p, eval corruptSet j df = .value p ∧ corruptSet.flag p = true) ∧
    eval corrupt 0 df = .value 7 ∧ corrupt.flag 7 = false := by
  refine ⟨inv_corrupt, inv_corruptSet, by decide, by decide, by decide, by decide, fun j hj => ?_, by decide, by decide⟩
  obtain rfl : j = 0 := by omega
  exact ⟨7, by decide, by decide⟩

-- FaultAddressIsTheLowestExamined: each of the three commands
theorem met_fault_address : ∀ i ∈ [Instr.hasheval 1 df, .insert df, .query df],
    ∃ t, exec i corruptSet = .next t ∧ corruptSet.fault = false ∧ t.fault = true := by
  intro i hi
  simp only [List.mem_cons, List.not_mem_nil, or_false] at hi
  rcases hi with rfl | rfl | rfl <;> exact ⟨_, rfl, by decide, by decide⟩

-- OnlyResetLeavesFault
theorem met_in_fault : faulted.fault = true ∧ (∃ t, exec .sreset faulted = .next t) ∧
    ∃ t, exec (.query df) faulted = .next t := ⟨by decide, ⟨_, rfl⟩, ⟨_, rfl⟩⟩

-- LifecycleTransitionsAreTheSpecs: each transition, and a refusal
theorem met_lifecycle :
    (State.reset.Inv ∧ ∃ t, exec (.config 2 4) State.reset = .next t ∧
      t.rsps = State.reset.rsps ++ [Response.word ⟨.ok, 0x02, 10⟩]) ∧
    (running.Inv ∧ ∃ t, exec .release running = .next t ∧
      t.rsps = running.rsps ++ [Response.word ⟨.ok, 0x03, 0⟩]) ∧
    (corrupt.Inv ∧ ∃ t, exec (.insert df) corrupt = .next t ∧
      t.rsps = corrupt.rsps ++ [Response.word ⟨.eTable, 0x21, 0⟩]) ∧
    (faulted.Inv ∧ ∃ t, exec .sreset faulted = .next t ∧
      t.rsps = faulted.rsps ++ [Response.word ⟨.ok, 0x05, 0⟩]) ∧
    (running.Inv ∧ ∃ t, exec (.config 2 4) running = .next t ∧
      t.rsps = running.rsps ++ [Response.word ⟨.eState, 0x02, 0⟩]) :=
  ⟨⟨inv_reset, _, rfl, by decide⟩, ⟨inv_running, _, rfl, by decide⟩, ⟨inv_corrupt, _, rfl, by decide⟩,
    ⟨inv_faulted, _, rfl, by decide⟩, ⟨inv_running, _, rfl, by decide⟩⟩

-- ReadOnlyCommandsKeepTheState: a HASHEVAL and a QUERY that end OK
theorem met_read_only :
    (∃ t, exec (.hasheval 0 da) running = .next t ∧
      ∃ data, t.rsps = running.rsps ++ [Response.word ⟨.ok, 0x20, data⟩]) ∧
    (∃ t, exec (.query da) inserted = .next t ∧
      ∃ data, t.rsps = inserted.rsps ++ [Response.word ⟨.ok, 0x22, data⟩]) ∧
    ∃ t, exec (.validate 0 0) running = .next t :=
  ⟨⟨_, rfl, 7, by decide⟩, ⟨_, rfl, 1, by decide⟩, _, rfl⟩

-- OneResponsePerCommandAndParametersFixed, StepKeepsTheInvariant, EveryCommandIsAnswered
theorem met_step : (offering (encode (.insert df)) corrupt).Inv ∧
    (∃ t, step (offering (encode (.insert df)) corrupt) = .next t) ∧ ParamsLegal { sizeW := .w32, memBytes := 1, lanes := 1 } ∧
    ParamsLegal { sizeW := .w32, memBytes := 2 ^ 32 - 1, lanes := 1 } := by
  refine ⟨?_, ⟨_, rfl⟩, ⟨by decide, by decide, by decide⟩, ⟨by decide, by decide, by decide⟩⟩
  exact { params := ⟨by decide, by decide, by decide⟩, inactive := by decide, hashCount := by decide,
          log2Bits := by decide, size := by decide, noFault := by decide, faulted := by decide, memWf := by decide,
          memInside := by decide }

-- StepKeepsDigestsPresent: DA is present, and the step is the INSERT of another digest
theorem met_present : inserted.Inv ∧ inserted.Present da ∧
    (∃ t, step (offering (encode (.insert df)) inserted) = .next t) ∧ voidsInserts (.insert df) = false := by
  refine ⟨inv_inserted, fun k hk => ?_, ⟨_, rfl⟩, by decide⟩
  have h2 : inserted.hashCount.toNat = 2 := by decide
  obtain rfl | rfl : k = 0 ∨ k = 1 := by omega
  · decide
  · decide

-- NoFalseNegatives: INSERT DA, then INSERT of another digest and an illegal word through the channel
theorem met_no_false_negatives :
    let s : State := { running with cmds := [encode (.insert df), 0] }
    ∃ t u, exec (.insert da) s = .next t ∧ t.rsps = s.rsps ++ [Response.word ⟨.ok, 0x21, 0⟩] ∧
      (∀ w ∈ t.cmds.take 2, ∀ i, decode w = .ok i → voidsInserts i = false) ∧ core.run 2 t = .next u := by
  refine ⟨_, _, rfl, by decide, fun w hw i hi => ?_, rfl⟩
  change w ∈ [encode (.insert df), 0] at hw
  have hw' : w = encode (.insert df) ∨ w = 0 := by simpa using hw
  rcases hw' with rfl | rfl
  · have hd : decode (encode (.insert df)) = .ok (.insert df) := by decide
    rw [hd] at hi; cases hi; rfl
  · have hd : decode 0 = .error (.undefinedOp 0) := by decide
    rw [hd] at hi; cases hi

-- SaveAndRestoreRoundTrip: the smallest filter with its flag set
theorem met_save :
    let s := filter 3 0 [(0, 1)]
    s.active = true ∧ s.fault = false ∧ State.reset.active = false ∧ State.reset.params = s.params ∧
    ([1] : List Byte).length = s.bufBytes ∧
    ∀ off, off < s.bufBytes → ∃ b, ([1] : List Byte)[off]? = some b ∧
      exec (.bufrd (BitVec.ofNat 64 off)) s =
        .next { s with rsps := s.rsps ++ [Response.word ⟨.ok, 0x10, b.setWidth 64⟩] } := by
  refine ⟨by decide, by decide, by decide, by decide, by decide, fun off ho => ?_⟩
  have h1 : (filter 3 0 [(0, 1)]).bufBytes = 1 := by decide
  obtain rfl : off = 0 := by omega
  exact ⟨1, by decide, rfl⟩

theorem inv_smallest_set : (filter 3 0 [(0, 1)]).Inv :=
  { params := ⟨by decide, by decide, by decide⟩, inactive := by decide, hashCount := by decide, log2Bits := by decide,
    size := by decide, noFault := by decide, faulted := by decide, memWf := by decide, memInside := by decide }

-- ParallelLookupEqualsSequential: one lane, and more lanes than functions
theorem met_lanes : 1 ≤ running.params.lanes ∧ 1 ≤ widest.params.lanes ∧ widest.params.lanes = 4 := by decide

-- UnspecifiedBytesAreUnobservable: two memories that differ beyond the buffer only
theorem met_unspecified : Memory.wf running.mem = true ∧ Memory.wf (running.mem ++ [(10, 0x55)]) = true ∧
    ∀ off, ({ running with mem := running.mem ++ [(10, 0x55)] } : State).memRead off = running.memRead off := by
  refine ⟨by decide, by decide, fun off => ?_⟩
  by_cases h : off < 10
  · interval_cases off <;> decide
  · have hb : running.bufBytes = 10 := by decide
    have h1 : running.inBuffer off = false := by simp [State.inBuffer, hb, h]
    have h2 : ({ running with mem := running.mem ++ [(10, 0x55)] } : State).inBuffer off = false := h1
    unfold State.memRead
    rw [h1, h2]
    rfl

end Sys2Proof.Machine.Tests
end

section
/-! SUPPORT. The architectural state (10_state.md): the lifecycle the flags name, what RDREG answers, the reset
state, and the lifecycle's transitions. -/

namespace Sys2Proof.Machine

/-! ### The lifecycle (R24) -/

@[simp] theorem State.push_lifecycle (s : State) (r : Response) : (s.push r).lifecycle = s.lifecycle := rfl

theorem State.lifecycle_empty {s : State} (ha : s.active = false) (hf : s.fault = false) :
    s.lifecycle = some .empty := by simp [State.lifecycle, ha, hf]

theorem State.lifecycle_active {s : State} (ha : s.active = true) (hf : s.fault = false) :
    s.lifecycle = some .active := by simp [State.lifecycle, ha, hf]

theorem State.lifecycle_fault {s : State} (ha : s.active = true) (hf : s.fault = true) :
    s.lifecycle = some .fault := by simp [State.lifecycle, ha, hf]

/-- The flags name one of the three states, never the fourth combination (R24). -/
theorem State.Inv.lifecycle_cases {s : State} (h : s.Inv) :
    (s.lifecycle = some .empty ∧ s.active = false ∧ s.fault = false) ∨
    (s.lifecycle = some .active ∧ s.active = true ∧ s.fault = false) ∨
    (s.lifecycle = some .fault ∧ s.active = true ∧ s.fault = true) := by
  cases ha : s.active with
  | false =>
    obtain ⟨-, -, hf⟩ := h.inactive ha
    exact .inl ⟨State.lifecycle_empty ha hf, rfl, hf⟩
  | true =>
    cases hf : s.fault with
    | false => exact .inr (.inl ⟨State.lifecycle_active ha hf, rfl, rfl⟩)
    | true => exact .inr (.inr ⟨State.lifecycle_fault ha hf, rfl, rfl⟩)

/-! ### RDREG (R30 to R39) -/

/-- RDREG of a register answers its value and leaves the state, whatever the state is. -/
theorem exec_rdreg_number (r : ControlReg) (s : State) :
    exec (.rdreg r.number) s = .next (s.push ⟨.ok, 0x04, readReg r s⟩) := by
  cases r <;> rfl

/-- CAP's constant where SIZE_W is 64 (R31). -/
theorem capReg_w64 {p : Config.Params} (h : p.sizeW = .w64) : capReg p = 0x00000001404000A0 := by
  simp only [capReg, log2Max, sizeWBits, h]
  rfl

/-- CAP's constant where SIZE_W is 32 (R31). -/
theorem capReg_w32 {p : Config.Params} (h : p.sizeW = .w32) : capReg p = 0x00000001202000A0 := by
  simp only [capReg, log2Max, sizeWBits, h]
  rfl

theorem readReg_memsz_toNat {s : State} (h : s.Inv) : (readReg .memsz s).toNat = s.params.memBytes :=
  (BitVec.toNat_ofNat ..).trans (Nat.mod_eq_of_lt (h.params.memFits.trans_lt (sizeMax_lt _)))

/-- STATUS is 0, 1 or 3 and tells the lifecycle state (R33). -/
theorem readReg_status_cases {s : State} (h : s.Inv) :
    (s.lifecycle = some .empty ∧ readReg .status s = 0) ∨ (s.lifecycle = some .active ∧ readReg .status s = 1) ∨
    (s.lifecycle = some .fault ∧ readReg .status s = 3) := by
  rcases h.lifecycle_cases with ⟨hlife, ha, hf⟩ | ⟨hlife, ha, hf⟩ | ⟨hlife, ha, hf⟩
  · exact .inl ⟨hlife, by simp [readReg, statusReg, ha, hf]⟩
  · exact .inr (.inl ⟨hlife, by simp [readReg, statusReg, ha, hf]⟩)
  · exact .inr (.inr ⟨hlife, by simp [readReg, statusReg, ha, hf]⟩)

theorem readReg_log2Bits_toNat (s : State) : (readReg .log2Bits s).toNat = s.log2Bits.toNat :=
  BitVec.toNat_setWidth_of_le (by norm_num)

theorem State.Inv.bitCount_le {s : State} (h : s.Inv) : s.bitCount ≤ 2 ^ 64 := by
  unfold State.bitCount
  split
  · exact Nat.pow_le_pow_right (by norm_num) h.log2Bits_le
  · exact Nat.zero_le _

/-- BIT_COUNT_HI and BIT_COUNT_LO together hold `bit_count` exactly, 2^64 included (R36). -/
theorem readReg_bitCount_toNat {s : State} (h : s.Inv) :
    (readReg .bitCountHi s).toNat * 2 ^ 64 + (readReg .bitCountLo s).toNat = s.bitCount := by
  have := h.bitCount_le
  simp only [readReg, BitVec.toNat_ofNat]
  omega

theorem readReg_bufBytes_toNat {s : State} (h : s.Inv) : (readReg .bufBytes s).toNat = s.bufBytes :=
  (BitVec.toNat_ofNat ..).trans (Nat.mod_eq_of_lt h.bufBytes_le.2)

theorem readReg_tableBytes_toNat {s : State} (h : s.Inv) : (readReg .tableBytes s).toNat = s.tableBytes :=
  (BitVec.toNat_ofNat ..).trans (Nat.mod_eq_of_lt (s.tableBytes_le.trans_lt h.bufBytes_le.2))

/-- BUF_BYTES from the two parameters (00_scope.md R15). -/
theorem State.bufBytes_eq (s : State) :
    s.bufBytes = if s.active then s.hashCount.toNat * s.log2Bits.toNat + (2 ^ s.log2Bits.toNat + 7) / 8 else 0 := by
  cases ha : s.active with
  | false => exact State.bufBytes_inactive ha
  | true => rw [State.bufBytes_active ha, bvBytesOf_eq_ceil, if_pos rfl]

/-- Settles O30: RDREG answers `readReg`, and the invariant makes each value exact. -/
theorem rdregOfTheConstantAndFlagRegisters : Obligations.RdregOfTheConstantAndFlagRegisters := by
  intro s h
  refine ⟨?_, ⟨_, exec_rdreg_number .memsz s, readReg_memsz_toNat h⟩,
    ⟨_, exec_rdreg_number .status s, readReg_status_cases h⟩⟩
  split
  · next hw => rw [← capReg_w64 hw]; exact exec_rdreg_number .cap s
  · next hw => rw [← capReg_w32 hw]; exact exec_rdreg_number .cap s

/-- Settles O31: RDREG answers `readReg`, and under the invariant no register's exact value is truncated. -/
theorem rdregOfTheFilterRegisters : Obligations.RdregOfTheFilterRegisters := by
  intro s h
  refine ⟨readReg .hashCount s, readReg .log2Bits s, readReg .bitCountLo s, readReg .bitCountHi s,
    readReg .bufBytes s, readReg .tableBytes s, ?_, rfl, readReg_log2Bits_toNat s, readReg_bitCount_toNat h,
    readReg_tableBytes_toNat h, (readReg_bufBytes_toNat h).trans s.bufBytes_eq, fun ha => ?_⟩
  · simp only [List.forall_mem_cons]
    exact ⟨exec_rdreg_number .hashCount s, exec_rdreg_number .log2Bits s, exec_rdreg_number .bitCountLo s,
      exec_rdreg_number .bitCountHi s, exec_rdreg_number .bufBytes s, exec_rdreg_number .tableBytes s,
      exec_rdreg_number .faultAddr s, List.forall_mem_nil _⟩
  · obtain ⟨hhc, hl2, -⟩ := h.inactive ha
    exact ⟨hhc, by simp [readReg, hl2]⟩

/-! ### The reset state (R44) -/

/-- Every scalar is 0. -/
structure State.Cleared (s : State) : Prop where
  active : s.active = false
  fault : s.fault = false
  hashCount : s.hashCount = 0
  log2Bits : s.log2Bits = 0
  faultAddr : s.faultAddr = 0

theorem State.cleared_hardReset (p : Config.Params) : (State.hardReset p).Cleared := ⟨rfl, rfl, rfl, rfl, rfl⟩

theorem State.cleared_clear (s : State) : s.clear.Cleared := ⟨rfl, rfl, rfl, rfl, rfl⟩

theorem State.Cleared.push {s : State} (h : s.Cleared) (r : Response) : (s.push r).Cleared :=
  ⟨h.active, h.fault, h.hashCount, h.log2Bits, h.faultAddr⟩

theorem State.Cleared.lifecycle {s : State} (h : s.Cleared) : s.lifecycle = some .empty :=
  State.lifecycle_empty h.active h.fault

/-- While no filter is active no byte can be observed (20_memory.md R65). -/
theorem State.memRead_inactive {s : State} (ha : s.active = false) (off : Nat) : s.memRead off = none := by
  rw [State.memRead_eq_none, State.inBuffer, State.bufBytes_inactive ha]
  rfl

theorem State.Cleared.readReg {s : State} (h : s.Cleared) {r : ControlReg} (hcap : r ≠ .cap) (hmem : r ≠ .memsz) :
    readReg r s = 0 := by
  obtain ⟨ha, hf, hhc, hl2, hfa⟩ := h
  have hcount : s.bitCount = 0 := by simp [State.bitCount, ha]
  have htab : s.tableBytes = 0 := by simp [State.tableBytes, ha]
  cases r with
  | cap => exact absurd rfl hcap
  | memsz => exact absurd rfl hmem
  | status => simp [Machine.readReg, statusReg, ha, hf]
  | hashCount => exact hhc
  | log2Bits => simp [Machine.readReg, hl2]
  | bitCountLo => simp [Machine.readReg, hcount]
  | bitCountHi => simp [Machine.readReg, hcount]
  | bufBytes => simp [Machine.readReg, State.bufBytes_inactive ha]
  | tableBytes => simp [Machine.readReg, htab]
  | faultAddr => exact hfa

/-- SRESET from any state (41_lifecycle.md R124). -/
theorem exec_sreset (s : State) : exec .sreset s = .next (s.clear.push ⟨.ok, 0x05, 0⟩) := rfl

/-- Settles O29: both resets give a state whose scalars are 0, and everything else observable follows from that. -/
theorem resetAndSresetGiveTheResetState : Obligations.ResetAndSresetGiveTheResetState := by
  unfold Obligations.ResetAndSresetGiveTheResetState
  intro IsReset
  have isReset_of_cleared : ∀ t : State, t.Cleared → IsReset t.params t := fun t h =>
    ⟨rfl, h.active, h.fault, h.hashCount, h.log2Bits, h.faultAddr, h.lifecycle, State.memRead_inactive h.active,
      rfl, rfl, fun _ => h.readReg⟩
  exact ⟨fun p => ⟨isReset_of_cleared _ (State.cleared_hardReset p), rfl⟩,
    fun s => ⟨_, exec_sreset s, isReset_of_cleared _ (s.cleared_clear.push _), rfl, rfl⟩⟩

/-! ### The lifecycle's transitions (R24) -/

/-- The status of the one response a command handed over is the status it ended with. -/
theorem State.push_status_inj {s t : State} {r : Response} {e : Status} {op : Byte} {data : U64}
    (h : s.rsps = t.rsps) (heq : (s.push r).rsps = t.rsps ++ [Response.word ⟨e, op, data⟩]) : e = r.status := by
  rw [State.push_rsps_inj h heq]

/-- SRESET is never refused (60_exceptions.md R178, step 2). -/
theorem refused_ne_sreset {i : Instr} {s : State} {e : Status}
    (h : firstCheck i s = some e ∨ (e = .eIllegal ∧ i.wf = false)) : i ≠ .sreset := by
  rintro rfl
  rcases h with h | ⟨-, h⟩ <;> cases h

/-- INSERT's phase 2 keeps the lifecycle and the responses: it writes memory alone. -/
theorem setFlags_frame {ps : List Nat} {s t : State} (h : setFlags ps s = .value t) :
    t.lifecycle = s.lifecycle ∧ t.rsps = s.rsps := by
  obtain ⟨m, rfl⟩ := setFlags_mem h
  exact ⟨rfl, rfl⟩

/-- Settles O46: the transitions are read off the eight kinds of answer, and the response tells which kind it was. -/
theorem lifecycleTransitionsAreTheSpecs : Obligations.LifecycleTransitionsAreTheSpecs := by
  refine ⟨fun _ => State.Inv.lifecycle_cases, fun i s t e data _ h hr => ?_,
    fun p => (State.cleared_hardReset p).lifecycle⟩
  cases exec_next h with
  | refused e' hok htable hcheck heq =>
    subst heq
    obtain rfl : e = e' := State.push_status_inj rfl hr
    cases i with
    | sreset => exact absurd rfl (refused_ne_sreset hcheck)
    | config | release => simp [hok]
    | hasheval | insert | query => simp [htable]
    | validate | rdreg | bufrd | bufwr => rfl
  | read data' hreads heq =>
    subst heq
    obtain rfl : e = .ok := State.push_status_inj rfl hr
    cases i with
    | validate | rdreg | bufrd => rfl
    | hasheval | query => simp
    | config | release | sreset | bufwr | insert => cases hreads
  | config hc l2 size hi hf ha _ _ heq =>
    subst hi heq
    obtain rfl := State.push_status_inj rfl hr
    exact ⟨State.lifecycle_empty ha hf, State.lifecycle_active rfl hf⟩
  | release hi hf ha heq =>
    subst hi heq
    obtain rfl := State.push_status_inj rfl hr
    exact ⟨State.lifecycle_active ha hf, State.lifecycle_empty rfl hf⟩
  | sreset hi heq =>
    subst hi heq
    exact s.cleared_clear.lifecycle
  | bufwr off byte hi _ _ _ heq =>
    subst hi heq
    rfl
  | insert d ps s' hi _ _ _ hset heq =>
    subst hi heq
    obtain ⟨hlife, hrsps⟩ := setFlags_frame hset
    obtain rfl := State.push_status_inj hrsps hr
    exact hlife
  | tableFault k off d hev hf ha _ _ heq =>
    subst heq
    obtain rfl := State.push_status_inj rfl hr
    have hmove : s.lifecycle = some .active ∧ (s.faultedAt off).lifecycle = some .fault :=
      ⟨State.lifecycle_active ha hf, State.lifecycle_fault ha rfl⟩
    rcases hev with ⟨kw, rfl, -⟩ | ⟨rfl, -⟩ | ⟨rfl, -⟩ <;> exact hmove

end Sys2Proof.Machine
end

section
/-! SUPPORT. The buffer as a memory (20_memory.md): the byte order of words on a byte-wide transport, and that access
to a byte of the buffer has no side effect. -/

namespace Sys2Proof

/-! ### The bytes of a word (R59) -/

@[simp] theorem length_bytesOf {m : Nat} (w : BitVec m) (n : Nat) : (bytesOf w n).length = n := by
  simp [bytesOf]

/-- Bit `j` of byte `k` of a transfer is bit `8k + j` of the word. -/
theorem getLsbD_bytesOf {m : Nat} (w : BitVec m) {n k j : Nat} (hk : k < n) (hj : j < 8) :
    ((bytesOf w n).getD k 0).getLsbD j = w.getLsbD (8 * k + j) := by
  have hbyte : (bytesOf w n).getD k 0 = w.extractLsb' (8 * k) 8 := by simp [bytesOf, hk]
  rw [hbyte, BitVec.getLsbD_extractLsb', decide_eq_true hj, Bool.true_and]

/-- The first `l` bytes of a transfer are the word modulo `256^l`. -/
theorem natOfBytes_take {m : Nat} (w : BitVec m) {n l : Nat} (h : l ≤ n) :
    natOfBytes ((bytesOf w n).take l) = w.toNat % 256 ^ l := by
  have := natOfBytes_slice w n 0 l (by omega)
  rwa [List.drop_zero, pow_zero, Nat.div_one] at this

theorem aField_toNat (w : CmdWord) : (aField w).toNat = w.toNat / 256 ^ 20 % 256 ^ 8 := by
  rw [aField, BitVec.extractLsb'_toNat, Nat.shiftRight_eq_div_pow]
  norm_num

theorem dField_eq_ofNat (w : CmdWord) : dField w = BitVec.ofNat 160 w.toNat := rfl

/-- Bytes 0 to 19 of a command are the digest, as the digest service delivers it. -/
theorem digestOfBytes_toBytes (w : CmdWord) : digestOfBytes ((CmdWord.toBytes w).take 20) = some (dField w) := by
  unfold digestOfBytes CmdWord.toBytes
  rw [if_pos (by simp), natOfBytes_take w (by norm_num), dField_eq_ofNat]
  exact congrArg some (BitVec.eq_of_toNat_eq (by simp))

/-- The receiver takes the 32 bytes of a command word off the transfer and puts the word together again. -/
theorem ofBytes?_toBytes_append (w : CmdWord) (rest : List Byte) :
    CmdWord.ofBytes? (CmdWord.toBytes w ++ rest) = some (w, rest) := by
  have hlen : (CmdWord.toBytes w).length = 32 := length_bytesOf w 32
  have hword : natOfBytes (CmdWord.toBytes w) = w.toNat := by
    have := natOfBytes_take w (le_refl 32)
    rw [List.take_of_length_le (length_bytesOf w 32).le] at this
    exact this.trans (Nat.mod_eq_of_lt w.isLt)
  unfold CmdWord.ofBytes?
  rw [if_pos (by simp [hlen]), List.take_left' hlen, List.drop_left' hlen, hword, BitVec.ofNat_toNat,
    BitVec.setWidth_eq]

end Sys2Proof

namespace Sys2Proof.Machine

/-- Settles O12: the bytes of a transfer are slices of the word, and their number is the word's. -/
theorem wordsTravelLeastSignificantByteFirst : Obligations.WordsTravelLeastSignificantByteFirst := by
  refine ⟨fun w => ⟨length_bytesOf w 32, fun _ _ => getLsbD_bytesOf w, digestOfBytes_toBytes w, ?_,
    ofBytes?_toBytes_append w⟩, fun r => ⟨length_bytesOf r 10, fun _ _ => getLsbD_bytesOf r⟩⟩
  rw [aField_toNat]
  exact natOfBytes_slice w 32 20 8 (by norm_num)

/-! ### Access to a byte of the buffer (R62) -/

/-- Writing the byte a canonical memory already holds gives the same list of cells. -/
theorem Memory.write_read_self {cs : List Host.Cell} (h : Memory.wf cs = true) (a : Nat) :
    Memory.write cs a (Memory.read cs a) = cs := by
  refine Memory.wf_ext (Memory.wf_write h a _) h fun b => ?_
  rw [Memory.read_write h]
  split
  · next hb => rw [hb]
  · rfl

/-- Two responses handed over one after the other are listed in that order. -/
theorem State.push_push (s : State) (r r' : Response) :
    (s.push r).push r' = { s with rsps := s.rsps ++ [r.word, r'.word] } := by
  simp [State.push]

/-- Settles O34: a BUFRD hands over the byte and nothing else, and a write of the byte held gives the same memory. -/
theorem bufferAccessHasNoSideEffect : Obligations.BufferAccessHasNoSideEffect := by
  intro s off h ha hf ho
  refine ⟨?_, fun byte hbyte => ?_⟩
  · have hread := h.memRead ho
    exact ⟨_, _, _, execBufrd_ok hf ha hread, execBufrd_ok hf ha hread, rfl, s.push_push _ _⟩
  · obtain ⟨hin, rfl⟩ := State.memRead_eq_some.1 hbyte
    refine (execBufwr_ok _ hf ha hin).trans ?_
    rw [Memory.write_read_self h.memWf]
    rfl

end Sys2Proof.Machine
end

section
/-! SUPPORT. The encoding (30_encoding.md): the opcode table as the decoder follows it, and the words the engine
answers as illegal. -/

namespace Sys2Proof

theorem Instr.opcode_mem (i : Instr) :
    i.opcode ∈ ([0x01, 0x02, 0x03, 0x04, 0x05, 0x10, 0x11, 0x20, 0x21, 0x22] : List Byte) := by
  cases i <;> simp [Instr.opcode]

/-! ### The opcode table, row by row (R83, R88, R89) -/

/-- A row of opcode_table.json for a command, by its fields: it compares all of `op` and `z`, and of `b`, `a` and `d`
what their masks select. -/
def fieldRow (i : Instr) (b bMask : Byte) (aMask : U64) (dMask : Digest) : OpcodeRow :=
  ⟨i.mnemonic, packFields i.opcode b 0 0, BitVec.allOnes 8 ++ bMask ++ BitVec.allOnes 16 ++ aMask ++ dMask⟩

theorem fieldRow_matches_iff {i : Instr} {b bMask : Byte} {aMask : U64} {dMask : Digest} {w : CmdWord} :
    (fieldRow i b bMask aMask dMask).matches w = true ↔
      opField w = i.opcode ∧ bField w &&& bMask = b ∧ zField w = 0#16 ∧ aField w &&& aMask = 0#64 ∧
      dField w &&& dMask = 0#160 := by
  unfold fieldRow OpcodeRow.matches packFields
  rw [beq_iff_eq]
  conv_lhs => rw [word_eq_fields w]
  rw [and_fields, append_inj, append_inj, append_inj, append_inj, BitVec.and_allOnes, BitVec.and_allOnes]
  simp only [and_assoc]
  rfl

/-- The row of opcode_table.json that takes a command: the masks select the fields it does not use, and for RDREG the
register numbers of the row. -/
def Instr.row (i : Instr) : OpcodeRow :=
  match i with
  | .validate _ _ | .config _ _ | .bufwr _ _ => fieldRow i 0 0 0 (.allOnes 160)
  | .release | .sreset => fieldRow i 0 (.allOnes 8) (.allOnes 64) (.allOnes 160)
  | .rdreg n =>
    if n ≤ 0x07#8 then fieldRow i 0x00 0xF8 (.allOnes 64) (.allOnes 160)
    else fieldRow i 0x08 0xFE (.allOnes 64) (.allOnes 160)
  | .bufrd _ => fieldRow i 0 (.allOnes 8) 0 (.allOnes 160)
  | .hasheval _ _ => fieldRow i 0 (.allOnes 8) 0 0
  | .insert _ | .query _ => fieldRow i 0 (.allOnes 8) (.allOnes 64) 0

/-- The eleven rows are the rows of these commands; RDREG has two (R92). -/
theorem opcodeTable_eq : opcodeTable =
    [Instr.validate 0 0, .config 0 0, .release, .rdreg 0, .rdreg 8, .sreset, .bufrd 0, .bufwr 0 0, .hasheval 0 0,
      .insert 0, .query 0].map Instr.row := by
  decide

theorem Instr.mnemonic_row (i : Instr) : i.row.mnemonic = i.mnemonic := by
  cases i with
  | rdreg n => simp only [Instr.row]; split <;> rfl
  | _ => rfl

theorem Instr.row_mem (i : Instr) : i.row ∈ opcodeTable := by
  rw [opcodeTable_eq]
  cases i with
  | rdreg n => by_cases h : n ≤ 0x07#8 <;> simp [Instr.row, h, fieldRow, Instr.mnemonic, Instr.opcode]
  | _ => simp [Instr.row, fieldRow, Instr.mnemonic, Instr.opcode]

/-- RDREG's two rows take the register numbers 0x00 to 0x07 and 0x08 to 0x09 (R92). -/
theorem rdreg_masks_iff : ∀ n : Byte,
    (n &&& 0xF8 = 0x00 ↔ n ≤ 0x07#8) ∧ (n &&& 0xFE = 0x08 ↔ 0x08#8 ≤ n ∧ n ≤ 0x09#8) := by
  decide

theorem rdreg_row_matches_iff {n : Byte} {w : CmdWord} :
    (Instr.rdreg n).row.matches w = true ↔
      opField w = 0x04#8 ∧ (if n ≤ 0x07#8 then bField w ≤ 0x07#8 else 0x08#8 ≤ bField w ∧ bField w ≤ 0x09#8) ∧
      zField w = 0#16 ∧ aField w = 0#64 ∧ dField w = 0#160 := by
  obtain ⟨hfirst, hsecond⟩ := rdreg_masks_iff (bField w)
  by_cases hn : n ≤ 0x07#8
  · rw [Instr.row, if_pos hn, if_pos hn, fieldRow_matches_iff, BitVec.and_allOnes, BitVec.and_allOnes, hfirst,
      Instr.opcode]
  · rw [Instr.row, if_neg hn, if_neg hn, fieldRow_matches_iff, BitVec.and_allOnes, BitVec.and_allOnes, hsecond,
      Instr.opcode]

theorem rdreg_row_matches_packFields {n m : Byte} :
    (Instr.rdreg n).row.matches (packFields 0x04 m 0 0) = true ↔
      if n ≤ 0x07#8 then m ≤ 0x07#8 else 0x08#8 ≤ m ∧ m ≤ 0x09#8 := by
  rw [rdreg_row_matches_iff, opField_pack, bField_pack, zField_pack, aField_pack, dField_pack]
  simp

/-! ### The decoder against the table (R89) -/

/-- A word in a row is decoded to the row's command. -/
theorem decode_of_row_matches {i : Instr} {w : CmdWord} (h : i.row.matches w = true) :
    ∃ j, decode w = .ok j ∧ j.mnemonic = i.mnemonic := by
  cases i with
  | rdreg n =>
    obtain ⟨hop, hb, hz, ha, hd⟩ := rdreg_row_matches_iff.1 h
    have hb9 : bField w ≤ 0x09#8 := by split at hb <;> bv_omega
    exact ⟨.rdreg (bField w), by simp [decode, decodeRdreg, unlessUnused, hop, hb9, hz, ha, hd], rfl⟩
  | _ =>
    obtain ⟨hop, hb, hz, ha, hd⟩ := fieldRow_matches_iff.1 h
    simp only [Instr.opcode, BitVec.and_allOnes] at hop hb ha hd
    simp [decode, unlessUnused, hop, hb, hz, ha, hd, Instr.mnemonic]

/-- A decoded word is in its command's row. -/
theorem row_matches_of_decode {i : Instr} {w : CmdWord} (h : decode w = .ok i) : i.row.matches w = true := by
  obtain ⟨hz, hop, hf⟩ := decode_eq_ok h
  cases i with
  | validate | config | bufwr =>
    obtain ⟨-, -, hd⟩ := hf
    exact fieldRow_matches_iff.2 (by simp [hz, hop, hd])
  | release | sreset =>
    obtain ⟨hb, ha, hd⟩ := hf
    exact fieldRow_matches_iff.2 (by simp [hz, hop, hb, ha, hd])
  | rdreg n =>
    obtain ⟨hn, hn9, ha, hd⟩ := hf
    exact rdreg_row_matches_iff.2 ⟨hop, by split <;> bv_omega, hz, ha, hd⟩
  | bufrd =>
    obtain ⟨-, hb, hd⟩ := hf
    exact fieldRow_matches_iff.2 (by simp [hz, hop, hb, hd])
  | hasheval =>
    obtain ⟨-, -, hb⟩ := hf
    exact fieldRow_matches_iff.2 (by simp [hz, hop, hb])
  | insert | query =>
    obtain ⟨-, hb, ha⟩ := hf
    exact fieldRow_matches_iff.2 (by simp [hz, hop, hb, ha])

/-- Two rows that ask for different values of bits both compare share no word. -/
theorem OpcodeRow.not_matches_both {r r' : OpcodeRow} (h : r.pattern &&& r'.mask ≠ r'.pattern &&& r.mask)
    (w : CmdWord) : ¬ (r.matches w = true ∧ r'.matches w = true) := by
  rintro ⟨hr, hr'⟩
  rw [OpcodeRow.matches, beq_iff_eq] at hr hr'
  apply h
  rw [← hr, ← hr', BitVec.and_assoc, BitVec.and_assoc, BitVec.and_comm r.mask]

theorem opcodeTable_pairwise_conflict :
    opcodeTable.Pairwise fun r r' => r.pattern &&& r'.mask ≠ r'.pattern &&& r.mask := by
  decide

end Sys2Proof

namespace Sys2Proof.Machine

/-- Settles O6: a word is in a row exactly when it decodes, and rows that conflict in a compared bit share no word. -/
theorem decoderFollowsTheOpcodeTable : Obligations.DecoderFollowsTheOpcodeTable := by
  refine ⟨fun w => ?_, fun w => opcodeTable_pairwise_conflict.imp fun h => OpcodeRow.not_matches_both h w⟩
  split
  · next r hr =>
    have hmem := List.mem_of_find?_eq_some hr
    rw [opcodeTable_eq, List.mem_map] at hmem
    obtain ⟨i, -, rfl⟩ := hmem
    obtain ⟨j, hj, hname⟩ := decode_of_row_matches (List.find?_some (p := fun r : OpcodeRow => r.matches w) hr)
    refine ⟨j, hj, hname.trans i.mnemonic_row.symm, ?_⟩
    obtain ⟨-, -, hf⟩ := decode_eq_ok hj
    cases j with
    | validate | config | bufwr | hasheval =>
      obtain ⟨hfst, hsnd, -⟩ := hf
      exact ⟨hfst, hsnd⟩
    | rdreg | bufrd | insert | query =>
      obtain ⟨hoperand, -⟩ := hf
      exact hoperand
    | release | sreset => trivial
  · next hnone =>
    rw [List.find?_eq_none] at hnone
    cases hdec : decode w with
    | error e => exact ⟨e, rfl⟩
    | ok i => exact absurd (row_matches_of_decode hdec) (hnone _ i.row_mem)

/-! ### Words answered as illegal (R90 to R92) -/

/-- A word that decodes to no command is answered E_ILLEGAL and changes nothing. -/
theorem step_of_not_decoded {s : State} {w : CmdWord} {rest : List CmdWord} (hw : s.cmds = w :: rest)
    (hd : ∀ i, decode w ≠ .ok i) :
    step s = .next { s with cmds := rest, rsps := s.rsps ++ [Response.word ⟨.eIllegal, opField w, 0⟩] } := by
  have htake : s.takeCommand = some (w, { s with cmds := rest }) := by rw [State.takeCommand, hw]
  rw [step, htake]
  cases hdec : decode w with
  | error e => simp only [hdec]; rfl
  | ok i => exact absurd hdec (hd i)

/-- Settles O9: the decoder gives a command only to a word with the command's opcode. -/
theorem undefinedOpcodesAreIllegal : Obligations.UndefinedOpcodesAreIllegal := by
  refine ⟨fun s w rest hw hop => step_of_not_decoded hw fun i hi => ?_, by decide, by decide⟩
  obtain ⟨-, hopcode, -⟩ := decode_eq_ok hi
  exact hop (hopcode ▸ i.opcode_mem)

/-- Settles O10: the decoder gives a command only to a word whose other fields are 0. -/
theorem nonzeroUnusedFieldsAreIllegal : Obligations.NonzeroUnusedFieldsAreIllegal := by
  intro s w rest hw hfield
  refine step_of_not_decoded hw fun i hi => ?_
  obtain ⟨hz, hop, hf⟩ := decode_eq_ok hi
  cases i with
  | validate | config | bufwr =>
    obtain ⟨-, -, hd⟩ := hf
    simp [hz, hop, hd, Instr.opcode] at hfield
  | release | sreset =>
    obtain ⟨hb, ha, hd⟩ := hf
    simp [hz, hop, hb, ha, hd, Instr.opcode] at hfield
  | rdreg n =>
    obtain ⟨-, -, ha, hd⟩ := hf
    simp [hz, hop, ha, hd, Instr.opcode] at hfield
  | bufrd =>
    obtain ⟨-, hb, hd⟩ := hf
    simp [hz, hop, hb, hd, Instr.opcode] at hfield
  | hasheval =>
    obtain ⟨-, -, hb⟩ := hf
    simp [hz, hop, hb, Instr.opcode] at hfield
  | insert | query =>
    obtain ⟨-, hb, ha⟩ := hf
    simp [hz, hop, hb, ha, Instr.opcode] at hfield

/-- Settles O11: the decoder takes no RDREG number above 0x09, and the masks of the table's two rows split the numbers
up to there. -/
theorem reservedRegisterNumbersAreIllegal : Obligations.ReservedRegisterNumbersAreIllegal := by
  refine ⟨fun s w rest hw hop hn => ?_, (Instr.rdreg 0).row, (Instr.rdreg 8).row, by decide, fun n => ⟨?_, ?_⟩⟩
  · rw [← hop]
    refine step_of_not_decoded hw fun i hi => ?_
    obtain ⟨-, hopcode, hf⟩ := decode_eq_ok hi
    rw [hop] at hopcode
    cases i with
    | rdreg n =>
      obtain ⟨rfl, hle, -, -⟩ := hf
      bv_omega
    | _ => cases hopcode
  · exact rdreg_row_matches_packFields.trans (by simp [BitVec.le_def])
  · exact rdreg_row_matches_packFields.trans (by simp [BitVec.le_def])

/-- Settles O7, by evaluating the decoder and the word formats on the spec's literals. -/
theorem workedEncodingsOfTheSpec : Obligations.WorkedEncodingsOfTheSpec := by
  unfold Obligations.WorkedEncodingsOfTheSpec
  decide

end Sys2Proof.Machine
end

section
/-! SUPPORT. The parameter validator (40_validate.md): what Cap returns, exactly and at the corners. -/

namespace Sys2Proof.Machine

/-! ### The results of Cap (R111, R119) -/

/-- Cap answers Ok exactly when `hc` is not 0 and every limit holds. R111's step 4, on `hc * l2` alone, needs no
clause: it is implied by step 5's. -/
theorem cap_eq_ok_iff {p : Config.Params} {hc l2 size : Nat} :
    cap p hc l2 = .ok size ↔
      hc ≠ 0 ∧ l2 ≤ log2Max p ∧ hc ≤ hcFieldMax ∧ hc ≤ sizeMax p ∧ hc * l2 + bvBytesOf l2 ≤ sizeMax p ∧
        size = hc * l2 + bvBytesOf l2 := by
  constructor
  · intro h
    obtain ⟨hpos, hfit, hl2, rfl, hsize⟩ := cap_eq_ok h
    have hfield : sizeMax p ≤ hcFieldMax := Nat.le_sub_one_of_lt (sizeMax_lt p)
    exact ⟨Nat.ne_of_gt hpos, hl2, hfit.trans hfield, hfit, hsize, rfl⟩
  · rintro ⟨hne, hl2, -, hfit, hsize, rfl⟩
    exact cap_of_limits (Nat.pos_of_ne_zero hne) hfit hl2 hsize

/-- Settles O15: Ok and InvalidParameter each have their exact condition, and ParametersTooLarge is what remains. -/
theorem capIsTheExactSizeOrTheFailure : Obligations.CapIsTheExactSizeOrTheFailure := by
  intro p hc l2
  rw [← bvBytesOf_eq_ceil]
  split
  · next hzero => exact cap_invalid_iff.2 hzero
  split
  · next hne hlimits =>
    obtain ⟨hl2, hfield, hfit, hsize⟩ := hlimits
    exact cap_eq_ok_iff.2 ⟨hne, hl2, hfield, hfit, hsize, rfl⟩
  · next hne hlimits =>
    cases hcap : cap p hc l2 with
    | invalidParameter => exact absurd (cap_invalid_iff.1 hcap) hne
    | ok size =>
      obtain ⟨-, hl2, hfield, hfit, hsize, -⟩ := cap_eq_ok_iff.1 hcap
      exact absurd ⟨hl2, hfield, hfit, hsize⟩ hlimits
    | parametersTooLarge => rfl

/-- Of the engine's parameters Cap reads SIZE_W alone. -/
theorem cap_eq_cap_of_sizeW (w : Config.SizeW) (m l : Nat) : cap ⟨w, m, l⟩ = cap ⟨w, 0, 0⟩ := rfl

/-- Settles O16: Cap reads SIZE_W alone, so each table is evaluated on one engine of its width. -/
theorem capAtTheCorners : Obligations.CapAtTheCorners := by
  refine ⟨fun m l => ?_, fun m l => ?_⟩
  · rw [cap_eq_cap_of_sizeW]
    decide
  · rw [cap_eq_cap_of_sizeW]
    decide

end Sys2Proof.Machine
end

section
/-! SUPPORT. The fresh filter (41_lifecycle.md R126): what a CONFIG that ends OK leaves in the buffer, and what its
hash functions give. -/

namespace Sys2Proof.Machine

/-- A CONFIG that answers OK passed Cap and the memory check and left the configured state. -/
theorem exec_config_ok {s t : State} {hc : U64} {l2 : Byte} {data : U64} (h : exec (.config hc l2) s = .next t)
    (hr : t.rsps = s.rsps ++ [Response.word ⟨.ok, 0x02, data⟩]) :
    ∃ size, cap s.params hc.toNat l2.toNat = .ok size ∧ size ≤ s.params.memBytes ∧
      t = (s.configured hc l2 size).push ⟨.ok, 0x02, BitVec.ofNat 64 size⟩ := by
  cases exec_next h with
  | refused e hok _ _ heq =>
    subst heq
    exact absurd (State.push_status_inj rfl hr).symm hok
  | read _ hreads _ => cases hreads
  | config hc' l2' size hi _ _ hcap hfit heq =>
    cases hi
    exact ⟨size, hcap, hfit, heq⟩
  | release hi | sreset hi | bufwr _ _ hi | insert _ _ _ hi => cases hi
  | tableFault k off d hev => rcases hev with ⟨_, hi, -⟩ | ⟨hi, -⟩ | ⟨hi, -⟩ <;> cases hi

/-- The buffer of a configured filter is as long as the size Cap answered. -/
theorem State.configured_bufBytes {s : State} {hc : U64} {l2 : Byte} {size : Nat}
    (hcap : cap s.params hc.toNat l2.toNat = .ok size) : (s.configured hc l2 size).bufBytes = size := by
  obtain ⟨-, -, -, hsize, -⟩ := cap_eq_ok hcap
  rw [State.bufBytes_active rfl, hsize]
  rfl

/-- Every byte of a configured filter's buffer is 0 (41_lifecycle.md R126). -/
theorem State.memRead_configured {s : State} {hc : U64} {l2 : Byte} {size off : Nat}
    (hcap : cap s.params hc.toNat l2.toNat = .ok size) (hfit : size ≤ s.params.memBytes)
    (ho : off < (s.configured hc l2 size).bufBytes) : (s.configured hc l2 size).memRead off = some 0 := by
  have hlt : off < size := State.configured_bufBytes hcap ▸ ho
  refine State.memRead_eq_some.2 ⟨State.inBuffer_iff.2 ⟨ho, hlt.trans_le hfit⟩, ?_⟩
  rw [State.configured_mem, Memory.read_zeroBelow, if_pos hlt]
  rfl

/-- A run whose stored indices are all the same good one copies that digest bit to every output bit. -/
theorem eval_of_constant_run {s : State} {k : Nat} {b : Byte} (d : Digest) (hb : b.toNat < 160)
    (h : ∀ i, i < s.log2Bits.toNat → s.memRead (tableOffset s k i) = some b) :
    eval s k d = .value (if d.getLsbD b.toNat then 2 ^ s.log2Bits.toNat - 1 else 0) := by
  refine evalUpTo_eq_value.2 ⟨?_, fun i hi => ⟨b, h i hi, hb, ?_⟩⟩
  · have hpos : 0 < 2 ^ s.log2Bits.toNat := by positivity
    split <;> omega
  · split
    · next hbit => rw [hbit, Nat.testBit_two_pow_sub_one, decide_eq_true hi]
    · next hbit => rw [Nat.zero_testBit, Bool.eq_false_of_not_eq_true hbit]

/-- Settles O19: the buffer CONFIG zeroed holds every function's run, and all its stored indices are 0. -/
theorem freshFilterHashesToDigestBitZero : Obligations.FreshFilterHashesToDigestBitZero := by
  intro s t hc l2 data h hr
  obtain ⟨size, hcap, hfit, rfl⟩ := exec_config_ok h hr
  have hzero (off : Nat) := State.memRead_configured (off := off) hcap hfit
  refine ⟨hzero, fun k d hk => eval_of_constant_run (b := 0) d (by decide) fun i hi => hzero _ ?_⟩
  exact (tableOffset_lt (s := s.configured hc l2 size) rfl hk hi).trans_le (State.tableBytes_le _)

end Sys2Proof.Machine
end

section
/-! SUPPORT. Save and restore (42_buffer.md R143): the bytes BUFRD answers are the memory, CONFIG and a run of BUFWR put
them back, and the answers of HASHEVAL and QUERY do not depend on the channels. -/

namespace Sys2Proof.Machine

/-! ### Commands in order -/

theorem execAll_cons {i : Instr} {s t : State} (h : exec i s = .next t) (is : List Instr) :
    execAll (i :: is) s = execAll is t := by
  rw [execAll, h]

theorem execAll_append {is : List Instr} {s t : State} (h : execAll is s = .next t) (js : List Instr) :
    execAll (is ++ js) s = execAll js t := by
  induction is generalizing s with
  | nil => cases h; rfl
  | cons i is ih =>
    rw [List.cons_append]
    rw [execAll] at h ⊢
    cases hi : exec i s with
    | next u =>
      rw [hi] at h
      exact ih h
    | fault f => rw [hi] at h; cases h
    | refused r => rw [hi] at h; cases h

/-! ### Reading a buffer out -/

/-- What BUFRD answers is the byte the memory holds (R141). -/
theorem State.Inv.read_of_exec_bufrd {s : State} (h : s.Inv) (hf : s.fault = false) (ha : s.active = true) {off : Nat}
    (ho : off < s.bufBytes) {b : Byte}
    (hexec : exec (.bufrd (BitVec.ofNat 64 off)) s =
      .next { s with rsps := s.rsps ++ [Response.word ⟨.ok, 0x10, b.setWidth 64⟩] }) :
    Memory.read s.mem off = b := by
  have hoff : (BitVec.ofNat 64 off).toNat = off := Nat.mod_eq_of_lt (ho.trans h.bufBytes_le.2)
  have hread : s.memRead (BitVec.ofNat 64 off).toNat = some (Memory.read s.mem off) := by rw [hoff, h.memRead ho]
  have hdata : (⟨.ok, 0x10, (Memory.read s.mem off).setWidth 64⟩ : Response) = ⟨.ok, 0x10, b.setWidth 64⟩ :=
    State.push_rsps_inj rfl (congrArg State.rsps (Host.Outcome.next.inj ((execBufrd_ok hf ha hread).symm.trans hexec)))
  have hnat := congrArg (fun r : Response => r.data.toNat) hdata
  simp only [BitVec.toNat_setWidth_of_le (show 8 ≤ 64 by norm_num)] at hnat
  exact BitVec.eq_of_toNat_eq hnat

/-- Beyond the buffer nothing is listed (log entry 5). -/
theorem State.Inv.read_beyond {s : State} (h : s.Inv) {a : Nat} (ha : s.bufBytes ≤ a) :
    Memory.read s.mem a = Memory.unlisted :=
  Memory.read_unlisted fun c hc hca => by have := h.memInside c hc; omega

/-! ### Writing a buffer -/

theorem exec_bufwr_ofNat {s : State} {off : Nat} (b : Byte) (hf : s.fault = false) (ha : s.active = true)
    (ho : off < 2 ^ 64) (hin : s.inBuffer off = true) :
    exec (.bufwr (BitVec.ofNat 64 off) b) s =
      .next { s with mem := Memory.write s.mem off b, rsps := s.rsps ++ [Response.word ⟨.ok, 0x11, 0⟩] } := by
  have hoff : (BitVec.ofNat 64 off).toNat = off := Nat.mod_eq_of_lt ho
  refine (execBufwr_ok b hf ha (hoff.symm ▸ hin)).trans ?_
  rw [hoff]
  rfl

/-- BUFWR of each byte of a list, from offset 0 on, ends OK while the offsets are in the buffer, changes nothing but
memory, and leaves the list at the front of the memory. -/
theorem execAll_bufwr {s : State} (hf : s.fault = false) (ha : s.active = true) (hw : Memory.wf s.mem = true)
    {bytes : List Byte} (hlen : bytes.length ≤ 2 ^ 64) (hin : ∀ off, off < bytes.length → s.inBuffer off = true) :
    ∃ m r, execAll (bytes.mapIdx fun off byte => .bufwr (BitVec.ofNat 64 off) byte) s =
        .next { s with mem := m, rsps := r } ∧
      Memory.wf m = true ∧ ∀ a, Memory.read m a = bytes[a]?.getD (Memory.read s.mem a) := by
  induction bytes using List.reverseRecOn with
  | nil => exact ⟨s.mem, s.rsps, rfl, hw, fun a => rfl⟩
  | append_singleton bs b ih =>
    rw [List.length_append, List.length_singleton] at hlen hin
    obtain ⟨m, r, hrun, hm, hread⟩ := ih (by omega) fun off ho => hin off (by omega)
    refine ⟨Memory.write m bs.length b, r ++ [Response.word ⟨.ok, 0x11, 0⟩], ?_, Memory.wf_write hm _ _, fun a => ?_⟩
    · rw [List.mapIdx_concat, execAll_append hrun]
      exact execAll_cons (exec_bufwr_ofNat (s := { s with mem := m, rsps := r }) b hf ha (by omega)
        (hin bs.length (by omega))) []
    · rw [Memory.read_write hm, hread]
      rcases Nat.lt_trichotomy a bs.length with hlt | rfl | hgt
      · rw [if_neg hlt.ne, List.getElem?_append_left hlt]
      · rw [if_pos rfl, List.getElem?_concat_length, Option.getD_some]
      · rw [if_neg hgt.ne', List.getElem?_eq_none hgt.le, List.getElem?_eq_none (by simpa using hgt)]

/-! ### Restoring -/

/-- The sizes of a filter are accepted again. -/
theorem State.Inv.cap_eq {s : State} (h : s.Inv) (ha : s.active = true) :
    cap s.params s.hashCount.toNat s.log2Bits.toNat = .ok s.bufBytes := by
  obtain ⟨hpos, hfit⟩ := h.hashCount ha
  have hsize := (h.size ha).trans (min_le_left _ _)
  rw [State.bufBytes_active ha] at hsize ⊢
  exact cap_of_limits hpos hfit (h.log2Bits ha) hsize

/-- CONFIG with a filter's sizes makes the filter on an EMPTY engine like its own, the channels and the memory aside:
that reads 0 everywhere. -/
theorem exec_config_restores {s e : State} (hs : s.Inv) (ha : s.active = true) (hf : s.fault = false) (he : e.Inv)
    (hea : e.active = false) (hp : e.params = s.params) :
    ∃ m r, exec (.config s.hashCount s.log2Bits) e = .next { s with mem := m, cmds := e.cmds, rsps := r } ∧
      Memory.wf m = true ∧ ∀ a, Memory.read m a = Memory.unlisted := by
  obtain ⟨-, -, hef⟩ := he.inactive hea
  obtain ⟨hfit, -⟩ := hs.bufBytes_le
  refine ⟨Memory.zeroBelow s.bufBytes e.mem, e.rsps ++ [Response.word ⟨.ok, 0x02, BitVec.ofNat 64 s.bufBytes⟩],
    (execConfig_ok hef hea (hp ▸ hs.cap_eq ha) (hp ▸ hfit)).trans ?_, Memory.wf_zeroBelow he.memWf _, fun a => ?_⟩
  · simp [respond, State.push, State.configured, hp, ha, hef, hf, he.noFault hef, hs.noFault hf]
  · rw [Memory.read_zeroBelow, he.read_beyond (State.bufBytes_inactive hea ▸ Nat.zero_le a), ite_self]

/-- CONFIG with a filter's sizes and BUFWR of the bytes its memory holds make the filter again, the channels aside. -/
theorem execAll_restoreCommands {s e : State} {bytes : List Byte} (hs : s.Inv) (ha : s.active = true)
    (hf : s.fault = false) (he : e.Inv) (hea : e.active = false) (hp : e.params = s.params)
    (hlen : bytes.length = s.bufBytes) (hbytes : ∀ off, off < s.bufBytes → bytes[off]? = some (Memory.read s.mem off)) :
    ∃ r, execAll (restoreCommands s.hashCount s.log2Bits bytes) e = .next { s with cmds := e.cmds, rsps := r } := by
  obtain ⟨m₀, r₀, hconfig, hm₀, hzero⟩ := exec_config_restores hs ha hf he hea hp
  obtain ⟨m, r, hrun, hm, hread⟩ := execAll_bufwr (s := { s with mem := m₀, cmds := e.cmds, rsps := r₀ }) hf ha hm₀
    (hlen.trans_le hs.bufBytes_le.2.le) fun off ho => hs.inBuffer (hlen ▸ ho)
  have hsame : m = s.mem := Memory.wf_ext hm hs.memWf fun a => by
    rw [hread, hzero]
    rcases Nat.lt_or_ge a s.bufBytes with hlt | hge
    · rw [hbytes a hlt, Option.getD_some]
    · rw [List.getElem?_eq_none (hlen.trans_le hge), hs.read_beyond hge, Option.getD_none]
  exact ⟨r, (execAll_cons hconfig _).trans (hsame ▸ hrun)⟩

/-! ### Answers do not depend on the channels -/

@[simp] theorem answerOf_push (s : State) (r : Response) : answerOf (.next (s.push r)) = some r.word := by
  simp [answerOf]

/-- A command that needs a filter answers alike where the flags agree and its own part does. -/
theorem answerOf_withFilter {s t : State} {op : Byte} {run run' : Result} (hf : t.fault = s.fault)
    (ha : t.active = s.active) (h : answerOf run' = answerOf run) :
    answerOf (withFilter op t run') = answerOf (withFilter op s run) := by
  unfold withFilter unlessFaulted raise
  rw [hf, ha]
  split
  · simp only [answerOf_push]
  · split
    · exact h
    · simp only [answerOf_push]

/-- A command that ends with an evaluation answers alike where what it does with the value does. -/
theorem answerOf_finish {α : Type} {s t : State} {op : Byte} (r : Sweep α) {run run' : α → Result}
    (h : ∀ a, answerOf (run' a) = answerOf (run a)) :
    answerOf (r.finish op t run') = answerOf (r.finish op s run) := by
  cases r with
  | value a => exact h a
  | tableFault off => simp [Sweep.finish, takeTableFault, raise]
  | outside off => rfl

theorem answerOf_respond (s t : State) (op : Byte) (data : U64) :
    answerOf (respond op data t) = answerOf (respond op data s) := by
  simp [respond]

theorem eval_channels (s : State) (cs : List CmdWord) (rs : List RspWord) (k : Nat) (d : Digest) :
    eval { s with cmds := cs, rsps := rs } k d = eval s k d :=
  eval_congr (s := s) rfl fun _ _ => rfl

theorem selectedFlag_channels (s : State) (cs : List CmdWord) (rs : List RspWord) (k : Nat) (d : Digest) :
    selectedFlag { s with cmds := cs, rsps := rs } k d = selectedFlag s k d := by
  unfold selectedFlag
  rw [eval_channels]
  rfl

theorem answerOf_hasheval_channels (s : State) (cs : List CmdWord) (rs : List RspWord) (k : U64) (d : Digest) :
    answerOf (exec (.hasheval k d) { s with cmds := cs, rsps := rs }) = answerOf (exec (.hasheval k d) s) := by
  refine answerOf_withFilter rfl rfl ?_
  rw [eval_channels]
  split
  · exact (answerOf_push _ _).trans (answerOf_push _ _).symm
  · exact answerOf_finish _ fun p => answerOf_respond _ _ _ _

theorem answerOf_query_channels (s : State) (cs : List CmdWord) (rs : List RspWord) (d : Digest) :
    answerOf (exec (.query d) { s with cmds := cs, rsps := rs }) = answerOf (exec (.query d) s) := by
  refine answerOf_withFilter rfl rfl ?_
  rw [queryUpTo_congr fun k _ => selectedFlag_channels s cs rs k d]
  exact answerOf_finish _ fun present => answerOf_respond _ _ _ _

/-- Settles O54: the answered bytes are the memory, by the writes they are the restored memory too, and the states that
result differ in the channels alone. -/
theorem saveAndRestoreRoundTrip : Obligations.SaveAndRestoreRoundTrip := by
  intro s e bytes hs ha hf he hea hp hlen hbufrd
  have hbytes : ∀ off, off < s.bufBytes → bytes[off]? = some (Memory.read s.mem off) := fun off ho => by
    obtain ⟨b, hb, hexec⟩ := hbufrd off ho
    rw [hb, hs.read_of_exec_bufrd hf ha ho hexec]
  obtain ⟨r, hrun⟩ := execAll_restoreCommands hs ha hf he hea hp hlen hbytes
  exact ⟨_, hrun, rfl, answerOf_hasheval_channels s _ _, answerOf_query_channels s _ _⟩

end Sys2Proof.Machine
end

section
/-! SUPPORT. What Eval computes (43_engine.md R151), and the parallel lookup as a whole (R156): after any number of
groups of lanes, the lanes have found what the sequential loops find after as many functions. -/

namespace Sys2Proof.Machine

/-- Settles O36: Eval is its loop after all L rounds, and under the invariant every stored index has its byte. -/
theorem evalSelectsDigestBits : Obligations.EvalSelectsDigestBits :=
  fun _ _ d h ha hk => ⟨fun _ => evalUpTo_eq_value, fun _ => evalUpTo_eq_tableFault, h.eval_total ha hk d⟩

/-- A group that lies behind the last function has no lanes, so its first function can be taken to be the end. -/
theorem laneGroup_start (s : State) (d : Digest) (g : Nat) :
    laneGroup s d (g * s.params.lanes) (groupSize s g) =
      laneGroup s d (min s.hashCount.toNat (g * s.params.lanes)) (groupSize s g) := by
  rcases Nat.le_total (g * s.params.lanes) s.hashCount.toNat with hin | hbehind
  · rw [min_eq_right hin]
  · have hempty : groupSize s g = 0 := by rw [groupSize, Nat.sub_eq_zero_of_le hbehind, Nat.min_zero]
    rw [hempty]
    rfl

/-- INSERT's phase 1 by groups is the sequential phase 1. -/
theorem positionsGroups_eq (s : State) (d : Digest) (g : Nat) :
    positionsGroups s d g = positionsUpTo s d (min s.hashCount.toNat (g * s.params.lanes)) := by
  induction g with
  | zero => rw [Nat.zero_mul, Nat.min_zero]; rfl
  | succ g ih => rw [positionsGroups, ih, laneGroup_start, positionsUpTo_group, groupSize, group_bound]

/-- QUERY by groups is the sequential QUERY. -/
theorem queryGroups_eq (s : State) (d : Digest) (g : Nat) :
    queryGroups s d g = queryUpTo s d (min s.hashCount.toNat (g * s.params.lanes)) := by
  induction g with
  | zero => rw [Nat.zero_mul, Nat.min_zero]; rfl
  | succ g ih => rw [queryGroups, ih, laneGroup_start, queryUpTo_group, groupSize, group_bound]

/-- Settles O55: each parallel command differs from the sequential one in its evaluation alone, and the groups of lanes
cover every function. -/
theorem parallelLookupEqualsSequential : Obligations.ParallelLookupEqualsSequential := by
  refine fun s hlanes => ⟨fun k d => ?_, fun d => ?_, fun d => ?_⟩
  · rw [execHashevalLanes, evalLanes_eq]
    rfl
  · rw [execInsertLanes, positionsGroups_eq, groupCount_covers hlanes]
    rfl
  · rw [execQueryLanes, queryGroups_eq, groupCount_covers hlanes]
    rfl

end Sys2Proof.Machine
end

section
/-! SUPPORT. No false negatives (43_engine.md R155): a digest that INSERT made present stays present over every step
that runs none of the commands that can clear a flag or change a stored index. -/

namespace Sys2Proof.Machine

/-! ### What a step can do to the channels -/

/-- What a step can do: idle, answer a word that is illegal, or execute the command a word stands for. -/
theorem step_next {s t : State} (h : step s = .next t) :
    (s.cmds = [] ∧ t = s) ∨
    ∃ w rest, s.cmds = w :: rest ∧
      (t = State.push { s with cmds := rest } ⟨.eIllegal, opField w, 0⟩ ∨
        ∃ i, decode w = .ok i ∧ exec i { s with cmds := rest } = .next t) := by
  cases hcmds : s.cmds with
  | nil =>
    rw [step, State.takeCommand, hcmds] at h
    cases h
    exact .inl ⟨rfl, rfl⟩
  | cons w rest =>
    rw [step, State.takeCommand, hcmds] at h
    refine .inr ⟨w, rest, rfl, ?_⟩
    cases hdec : decode w with
    | error e =>
      simp only [hdec] at h
      cases h
      exact .inl rfl
    | ok i =>
      simp only [hdec] at h
      exact .inr ⟨i, rfl, h⟩

/-- No command takes words off the command channel. -/
theorem Answered.cmds_eq {i : Instr} {s t : State} (h : Answered i s t) : t.cmds = s.cmds := by
  cases h with
  | insert d ps s' _ _ _ _ hset heq =>
    obtain ⟨m, rfl⟩ := setFlags_mem hset
    rw [heq]
    rfl
  | refused _ _ _ _ heq | read _ _ heq | config _ _ _ _ _ _ _ _ heq | release _ _ _ heq | sreset _ heq
  | bufwr _ _ _ _ _ _ heq | tableFault _ _ _ _ _ _ _ _ heq =>
    rw [heq]
    rfl

/-! ### A filter that remembers a digest -/

/-- A filter in ACTIVE, its memory in canonical form, in which the digest is present. -/
structure State.Remembers (s : State) (d : Digest) : Prop where
  active : s.active = true
  noFault : s.fault = false
  memWf : Memory.wf s.mem = true
  present : s.Present d

/-- What a filter remembers does not depend on the channels. -/
theorem State.Remembers.withChannels {s : State} {d : Digest} (h : s.Remembers d) (cs : List CmdWord)
    (rs : List RspWord) : State.Remembers { s with cmds := cs, rsps := rs } d :=
  { h with present := fun k hk => (selectedFlag_channels s cs rs k d).trans (h.present k hk) }

theorem State.Remembers.push {s : State} {d : Digest} (h : s.Remembers d) (r : Response) : (s.push r).Remembers d :=
  h.withChannels s.cmds _

/-- With a digest present every run is good, whatever digest is evaluated. -/
theorem State.Present.eval_ne_tableFault {s : State} {d : Digest} (h : s.Present d) {k : Nat}
    (hk : k < s.hashCount.toNat) (d' : Digest) (off : Nat) : eval s k d' ≠ .tableFault off := by
  intro hfault
  obtain ⟨p, hp, -⟩ := selectedFlag_eq_value.1 (h k hk)
  have hfault' := (eval_tableFault_digest s d' d k off).1 hfault
  rw [hp] at hfault'
  cases hfault'

/-- After INSERT has set the flags of `d'`, a function's flag for `d` is set when it was before, or when `d` is `d'`. -/
theorem SetsFlags.selectedFlag_eq_true {s t : State} {d d' : Digest} (hset : SetsFlags s t d')
    (ha : s.active = true) (ht : t = { s with mem := t.mem }) {k p : Nat} {b : Byte} (hk : k < s.hashCount.toNat)
    (hp : eval s k d = .value p) (hb : s.memRead (flagOffset s p) = some b) (h : flagIn b p = true ∨ d = d') :
    selectedFlag t k d = .value true := by
  obtain ⟨b', hb', hbits⟩ := hset.1 _ b hb
  have hoff : flagOffset t p = flagOffset s p := by rw [ht]; rfl
  have hflag : flagIn b' p = true := (hbits (p % 8) (Nat.mod_lt _ (by norm_num))).2 <| 
    h.imp_right fun hd : d = d' => ⟨k, p, hk, hd ▸ hp, rfl, rfl⟩
  exact selectedFlag_eq_value.2
    ⟨p, (eval_of_setsFlags ha ht hset hk d).trans hp, readFlag_eq_value.2 ⟨b', by rw [hoff, hb'], hflag⟩⟩

/-- Setting flags keeps a digest present. -/
theorem State.Remembers.of_setFlags {s t : State} {d d' : Digest} {ps : List Nat} (h : s.Remembers d)
    (hps : positionsUpTo s d' s.hashCount.toNat = .value ps) (hset : setFlags ps s = .value t) : t.Remembers d := by
  obtain ⟨ht, hwf, -, hflags⟩ := setFlags_setsFlags h.memWf hps hset
  refine ⟨by rw [ht]; exact h.active, by rw [ht]; exact h.noFault, hwf, fun k hk => ?_⟩
  rw [ht] at hk
  obtain ⟨p, hp, hread⟩ := selectedFlag_eq_value.1 (h.present k hk)
  obtain ⟨b, hb, hbit⟩ := readFlag_eq_value.1 hread
  exact hflags.selectedFlag_eq_true h.active ht hk hp hb (.inl hbit)

/-- Setting the flags a digest selects makes it present. -/
theorem State.Inv.remembers_of_setFlags {s t : State} {d : Digest} {ps : List Nat} (h : s.Inv)
    (ha : s.active = true) (hf : s.fault = false) (hps : positionsUpTo s d s.hashCount.toNat = .value ps)
    (hset : setFlags ps s = .value t) : t.Remembers d := by
  obtain ⟨ht, hwf, -, hflags⟩ := setFlags_setsFlags h.memWf hps hset
  refine ⟨by rw [ht]; exact ha, by rw [ht]; exact hf, hwf, fun k hk => ?_⟩
  rw [ht] at hk
  obtain ⟨p, -, hp⟩ := (positionsUpTo_eq_value.1 hps).2 k hk
  exact hflags.selectedFlag_eq_true ha ht hk hp (h.memRead (flagOffset_lt ha (eval_lt hp))) (.inr rfl)

/-! ### What keeps a digest present -/

/-- An INSERT that ended OK makes its digest present. -/
theorem State.Inv.remembers_of_insert {s t : State} {d : Digest} (h : s.Inv) (hexec : exec (.insert d) s = .next t)
    (hr : t.rsps = s.rsps ++ [Response.word ⟨.ok, 0x21, 0⟩]) : t.Remembers d := by
  cases exec_next hexec with
  | refused e hok _ _ heq =>
    subst heq
    exact absurd (State.push_status_inj rfl hr).symm hok
  | insert _ ps s' hi hf ha hps hset heq =>
    cases hi
    subst heq
    exact (h.remembers_of_setFlags ha hf hps hset).push _
  | tableFault _ _ _ _ _ _ _ _ heq =>
    subst heq
    cases State.push_status_inj rfl hr
  | read _ hreads _ => cases hreads
  | config _ _ _ hi | release hi | sreset hi | bufwr _ _ hi => cases hi

/-- A command that is none of BUFWR, RELEASE, CONFIG and SRESET keeps a digest present. -/
theorem State.Remembers.of_exec {i : Instr} {s t : State} {d : Digest} (h : s.Remembers d)
    (hi : voidsInserts i = false) (hexec : exec i s = .next t) : t.Remembers d := by
  cases exec_next hexec with
  | refused _ _ _ _ heq | read _ _ heq => exact heq ▸ h.push _
  | insert _ _ _ _ _ _ hps hset heq => exact heq ▸ (h.of_setFlags hps hset).push _
  | tableFault k off d' _ _ _ hk hfault _ => exact absurd hfault (h.present.eval_ne_tableFault hk d' off)
  | config _ _ _ heq | release heq | sreset heq | bufwr _ _ heq =>
    subst heq
    cases hi

/-- A step that runs none of those commands keeps a digest present, and takes no word behind the oldest. -/
theorem State.Remembers.of_step {s t : State} {d : Digest} (h : s.Remembers d)
    (hi : ∀ w ∈ s.cmds.head?, ∀ i, decode w = .ok i → voidsInserts i = false) (hstep : step s = .next t) :
    t.Remembers d ∧ t.cmds = s.cmds.tail := by
  rcases step_next hstep with ⟨hnil, rfl⟩ | ⟨w, rest, hcmds, rfl | ⟨i, hdec, hexec⟩⟩
  · exact ⟨h, by rw [hnil]; rfl⟩
  · exact ⟨(h.withChannels rest s.rsps).push _, by rw [hcmds]; rfl⟩
  · rw [hcmds] at hi ⊢
    exact ⟨(h.withChannels rest s.rsps).of_exec (hi w rfl i hdec) hexec, (exec_next hexec).cmds_eq⟩

/-- A run of one step more is a step and a run. -/
theorem run_succ_next {M : Host.Core} {n : Nat} {s u : M.State} (h : M.run (n + 1) s = .next u) :
    ∃ t, M.step s = .next t ∧ M.run n t = .next u := by
  unfold Host.Core.run at h
  split at h
  · next t hstep => exact ⟨t, hstep, h⟩
  · cases h
  · cases h

/-- A run of steps that runs none of those commands keeps a digest present. -/
theorem State.Remembers.of_run {s u : State} {d : Digest} {n : Nat} (h : s.Remembers d)
    (hi : ∀ w ∈ s.cmds.take n, ∀ i, decode w = .ok i → voidsInserts i = false) (hrun : core.run n s = .next u) :
    u.Remembers d := by
  induction n generalizing s with
  | zero => cases hrun; exact h
  | succ n ih =>
    obtain ⟨t, hstep, hrun⟩ := run_succ_next hrun
    have hhead : ∀ w ∈ s.cmds.head?, w ∈ s.cmds.take (n + 1) := fun w hw =>
      List.mem_of_mem_head? (by rwa [List.head?_take, if_neg n.succ_ne_zero])
    obtain ⟨ht, hcmds⟩ := h.of_step (fun w hw => hi w (hhead w hw)) hstep
    refine ih ht (fun w hw => hi w (List.mem_of_mem_tail ?_)) hrun
    rwa [List.tail_take_eq_take_tail, Nat.add_sub_cancel, ← hcmds]

/-- QUERY of a present digest answers 1 (R154). -/
theorem State.Remembers.exec_query {s : State} {d : Digest} (h : s.Remembers d) :
    exec (.query d) s = .next (s.push ⟨.ok, 0x22, 1⟩) := by
  refine (execQuery_active d h.noFault h.active).trans ?_
  rw [queryUpTo_eq_true.2 h.present]
  rfl

/-- Settles O53: INSERT makes its digest present, the run keeps it present, and QUERY of a present digest answers 1. -/
theorem noFalseNegatives : Obligations.NoFalseNegatives := by
  intro s t u d n hs hinsert hr hi hrun
  have ht : t.Remembers d := hs.remembers_of_insert hinsert hr
  have hu : u.Remembers d := ht.of_run hi hrun
  exact hu.exec_query

end Sys2Proof.Machine
end

section
/-! SUPPORT. The exceptions (60_exceptions.md): what the response of a command tells of how it ended, when each check
is the first that fails, and when the table fault is taken. -/

namespace Sys2Proof.Machine

/-! ### What a response tells (R182) -/

/-- The one response of a command, by its status: OK; E_TABLE, from a command that evaluates; or the status of a
refusal, which changes nothing. -/
theorem Answered.response_cases {i : Instr} {s t : State} (h : Answered i s t) :
    ∃ e data, t.rsps = s.rsps ++ [Response.word ⟨e, i.opcode, data⟩] ∧
      (e = .ok ∨
       (e = .eTable ∧ data = 0 ∧ ((∃ k d, i = .hasheval k d) ∨ (∃ d, i = .insert d) ∨ (∃ d, i = .query d))) ∨
       ((firstCheck i s = some e ∨ (e = .eIllegal ∧ i.wf = false)) ∧ t = s.push ⟨e, i.opcode, 0⟩)) := by
  cases h with
  | refused e _ _ hcheck heq => exact ⟨e, 0, by rw [heq]; rfl, .inr (.inr ⟨hcheck, heq⟩)⟩
  | read _ _ heq | config _ _ _ _ _ _ _ _ heq | release _ _ _ heq | sreset _ heq | bufwr _ _ _ _ _ _ heq =>
    exact ⟨.ok, _, by rw [heq]; rfl, .inl rfl⟩
  | insert _ _ _ _ _ _ _ hset heq =>
    obtain ⟨-, hrsps⟩ := setFlags_frame hset
    exact ⟨.ok, 0, by rw [heq, State.push_rsps, hrsps], .inl rfl⟩
  | tableFault k off d hev _ _ _ _ heq =>
    refine ⟨.eTable, 0, by rw [heq]; rfl, .inr (.inl ⟨rfl, rfl, ?_⟩)⟩
    rcases hev with ⟨kw, hi, -⟩ | ⟨hi, -⟩ | ⟨hi, -⟩
    · exact .inl ⟨kw, d, hi⟩
    · exact .inr (.inl ⟨d, hi⟩)
    · exact .inr (.inr ⟨d, hi⟩)

/-- A command answered with a status other than OK and E_TABLE was refused with it. -/
theorem Answered.refused_of_rsps {i : Instr} {s t : State} {e : Status} {rop : Byte} {data : U64}
    (h : Answered i s t) (hr : t.rsps = s.rsps ++ [Response.word ⟨e, rop, data⟩]) (hok : e ≠ .ok)
    (htable : e ≠ .eTable) :
    (firstCheck i s = some e ∨ (e = .eIllegal ∧ i.wf = false)) ∧ t = s.push ⟨e, i.opcode, 0⟩ := by
  obtain ⟨e', data', hr', hcases⟩ := h.response_cases
  have hword := Response.word_inj (List.singleton_inj.1 (List.append_cancel_left (hr.symm.trans hr')))
  obtain ⟨rfl, -, -⟩ := Response.mk.inj hword
  rcases hcases with he | ⟨he, -⟩ | hrefused
  · exact absurd he hok
  · exact absurd he htable
  · exact hrefused

/-- A command is refused with a status exactly when the first check that fails has it. -/
theorem exec_eq_refused_iff {i : Instr} {s : State} {e : Status} (hok : e ≠ .ok) (htable : e ≠ .eTable)
    (hillegal : e ≠ .eIllegal) : exec i s = .next (s.push ⟨e, i.opcode, 0⟩) ↔ firstCheck i s = some e := by
  refine ⟨fun h => ?_, exec_of_firstCheck⟩
  obtain ⟨hcheck | ⟨he, -⟩, -⟩ := (exec_next h).refused_of_rsps (State.push_rsps ..) hok htable
  · exact hcheck
  · exact absurd he hillegal

/-! ### Which check has which status (R178) -/

/-- The commands of step 2 have no check to fail. -/
theorem checks_of_skips {i : Instr} (s : State) (h : skipsChecks i = true) :
    stateCheck i s = none ∧ operandCheck i s = none := by
  cases i with
  | sreset | rdreg => exact ⟨rfl, rfl⟩
  | validate | config | release | bufrd | bufwr | hasheval | insert | query => cases h

/-- The state check has one status (R177). -/
theorem stateCheck_eq_some {i : Instr} {s : State} {e : Status} (h : stateCheck i s = some e) : e = .eState := by
  cases i with
  | config =>
    obtain ⟨-, he⟩ := Option.ite_none_right_eq_some.1 h
    exact (Option.some.inj he).symm
  | release | bufrd | bufwr | hasheval | insert | query =>
    obtain ⟨-, he⟩ := Option.ite_none_left_eq_some.1 h
    exact (Option.some.inj he).symm
  | validate | rdreg | sreset => cases h

/-- VALIDATE's operand checks are Cap's (R173, R174). -/
theorem operandCheck_validate_eq_some {hc : U64} {l2 : Byte} {s : State} {e : Status} :
    operandCheck (.validate hc l2) s = some e ↔
      (e = .eInval ∧ hc = 0) ∨
      (e = .e2Big ∧ hc ≠ 0 ∧ cap s.params hc.toNat l2.toNat = .parametersTooLarge) := by
  have hzero : hc = 0 ↔ cap s.params hc.toNat l2.toNat = .invalidParameter := by
    rw [cap_invalid_iff, ← BitVec.toNat_inj]; rfl
  rw [ne_eq, hzero]
  cases hcap : cap s.params hc.toNat l2.toNat <;> simp [operandCheck, hcap, eq_comm]

/-- CONFIG's operand checks are VALIDATE's, then whether the memory holds the size (R172). -/
theorem operandCheck_config_eq_some {hc : U64} {l2 : Byte} {s : State} {e : Status} :
    operandCheck (.config hc l2) s = some e ↔
      operandCheck (.validate hc l2) s = some e ∨
      (e = .eOom ∧ ∃ size, cap s.params hc.toNat l2.toNat = .ok size ∧ s.params.memBytes < size) := by
  cases hcap : cap s.params hc.toNat l2.toNat <;> simp [operandCheck, hcap, eq_comm, and_comm]

theorem operandCheck_ne {i : Instr} {s : State} {e : Status} (h : operandCheck i s = some e) :
    e ≠ .eState ∧ e ≠ .eFaulted := by
  cases i with
  | validate hc l2 =>
    rcases operandCheck_validate_eq_some.1 h with ⟨rfl, -⟩ | ⟨rfl, -⟩ <;> decide
  | config hc l2 =>
    rcases operandCheck_config_eq_some.1 h with h | ⟨rfl, -⟩
    · rcases operandCheck_validate_eq_some.1 h with ⟨rfl, -⟩ | ⟨rfl, -⟩ <;> decide
    · decide
  | bufrd | bufwr | hasheval =>
    obtain ⟨-, he⟩ := Option.ite_none_right_eq_some.1 h
    cases he
    decide
  | release | rdreg | sreset | insert | query => cases h

/-- The first check that fails, by the step of R178 it belongs to. -/
theorem firstCheck_eq_some_iff {i : Instr} {s : State} {e : Status} :
    firstCheck i s = some e ↔
      (e = .eFaulted ∧ s.fault = true ∧ skipsChecks i = false) ∨
      (e = .eState ∧ s.fault = false ∧ stateCheck i s = some .eState) ∨
      (s.fault = false ∧ stateCheck i s = none ∧ operandCheck i s = some e) := by
  cases hi : skipsChecks i with
  | true =>
    obtain ⟨hstate, hoperand⟩ := checks_of_skips s hi
    simp [firstCheck, hi, hstate, hoperand]
  | false =>
    cases hf : s.fault with
    | true => simp [firstCheck_faulted hi hf, eq_comm]
    | false =>
      cases hstate : stateCheck i s with
      | none => simp [firstCheck_operand hi hf hstate]
      | some e' =>
        obtain rfl := stateCheck_eq_some hstate
        simp [firstCheck_state hi hf hstate, eq_comm]

theorem firstCheck_eq_faulted_iff {i : Instr} {s : State} :
    firstCheck i s = some .eFaulted ↔ s.fault = true ∧ skipsChecks i = false := by
  have hoperand : operandCheck i s ≠ some .eFaulted := fun h => (operandCheck_ne h).2 rfl
  simp [firstCheck_eq_some_iff, hoperand]

theorem firstCheck_eq_state_iff {i : Instr} {s : State} :
    firstCheck i s = some .eState ↔ s.fault = false ∧ stateCheck i s = some .eState := by
  have hoperand : operandCheck i s ≠ some .eState := fun h => (operandCheck_ne h).1 rfl
  simp [firstCheck_eq_some_iff, hoperand]

theorem firstCheck_eq_operand_iff {i : Instr} {s : State} {e : Status} (hfaulted : e ≠ .eFaulted)
    (hstate : e ≠ .eState) :
    firstCheck i s = some e ↔ s.fault = false ∧ stateCheck i s = none ∧ operandCheck i s = some e := by
  simp [firstCheck_eq_some_iff, hfaulted, hstate]

/-! ### When each error is raised -/

/-- Settles O20: CONFIG's memory check is the one check with this status. -/
theorem oomRaisedExactlyWhen : Obligations.OomRaisedExactlyWhen := by
  intro i s
  refine (exec_eq_refused_iff (by decide) (by decide) (by decide)).trans ?_
  rw [firstCheck_eq_operand_iff (by decide) (by decide)]
  cases i with
  | config hc l2 => simp [stateCheck, operandCheck_config_eq_some, operandCheck_validate_eq_some]
  | validate hc l2 => simp [operandCheck_validate_eq_some]
  | release | rdreg | sreset | bufrd | bufwr | hasheval | insert | query => simp [operandCheck]

/-- Cap's two errors are VALIDATE's own, and CONFIG's where no filter is active. -/
theorem firstCheck_eq_capError_iff {i : Instr} {s : State} {e : Status} (he : e = .eInval ∨ e = .e2Big) :
    firstCheck i s = some e ↔
      ∃ hc l2, (i = .validate hc l2 ∨ i = .config hc l2 ∧ s.active = false) ∧ s.fault = false ∧
        operandCheck (.validate hc l2) s = some e := by
  obtain ⟨hfaulted, hstate, hoom, hrange⟩ : e ≠ .eFaulted ∧ e ≠ .eState ∧ e ≠ .eOom ∧ e ≠ .eRange := by
    rcases he with rfl | rfl <;> decide
  rw [firstCheck_eq_operand_iff hfaulted hstate]
  cases i with
  | validate hc l2 => simp [stateCheck]
  | config hc l2 => simp [stateCheck, operandCheck_config_eq_some, hoom, and_left_comm]
  | bufrd | bufwr | hasheval => simp [operandCheck, hrange.symm]
  | release | rdreg | sreset | insert | query => simp [operandCheck]

/-- Settles O21: both statuses are Cap's, and VALIDATE's operand check tells which is which. -/
theorem invalAndTooBigRaisedExactlyWhen : Obligations.InvalAndTooBigRaisedExactlyWhen := by
  refine fun i s => ⟨(exec_eq_refused_iff (by decide) (by decide) (by decide)).trans ?_,
    (exec_eq_refused_iff (by decide) (by decide) (by decide)).trans ?_⟩
  · simp [firstCheck_eq_capError_iff, operandCheck_validate_eq_some]
  · simp [firstCheck_eq_capError_iff, operandCheck_validate_eq_some]

/-- Settles O22: the state check, command by command. -/
theorem stateErrorRaisedExactlyWhen : Obligations.StateErrorRaisedExactlyWhen := by
  intro i s
  refine (exec_eq_refused_iff (by decide) (by decide) (by decide)).trans (firstCheck_eq_state_iff.trans ?_)
  cases i <;> simp [stateCheck]

/-- Settles O23: of the operand checks only those of BUFRD, BUFWR and HASHEVAL have this status. -/
theorem rangeErrorRaisedExactlyWhen : Obligations.RangeErrorRaisedExactlyWhen := by
  intro i s
  refine (exec_eq_refused_iff (by decide) (by decide) (by decide)).trans ?_
  rw [firstCheck_eq_operand_iff (by decide) (by decide)]
  cases i with
  | bufrd | bufwr | hasheval => simp [stateCheck, operandCheck]
  | validate => simp [operandCheck_validate_eq_some]
  | config => simp [operandCheck_config_eq_some, operandCheck_validate_eq_some]
  | release | rdreg | sreset | insert | query => simp [operandCheck]

/-- Settles O24: RDREG and SRESET alone skip the check of `fault`. -/
theorem faultedRaisedExactlyWhen : Obligations.FaultedRaisedExactlyWhen := by
  intro i s
  refine (exec_eq_refused_iff (by decide) (by decide) (by decide)).trans (firstCheck_eq_faulted_iff.trans ?_)
  cases i <;> simp [skipsChecks]

/-! ### A word as a whole (R178, R182) -/

/-- Settles O2: a word that decodes to a rejection decodes to no command. -/
theorem stepAnswersIllegalWords : Obligations.StepAnswersIllegalWords :=
  fun _ _ _ _ hw he => step_of_not_decoded hw fun i hi => by rw [he] at hi; cases hi

theorem step_of_decoded {s : State} {w : CmdWord} {rest : List CmdWord} {i : Instr} (hw : s.cmds = w :: rest)
    (hi : decode w = .ok i) : step s = exec i { s with cmds := rest } := by
  rw [step, State.takeCommand, hw]
  simp only [hi]

theorem decode_wf {w : CmdWord} {i : Instr} (h : decode w = .ok i) : i.wf = true := by
  obtain ⟨-, -, hf⟩ := decode_eq_ok h
  cases i with
  | rdreg n =>
    obtain ⟨-, hn, -⟩ := hf
    exact decide_eq_true hn
  | _ => rfl

/-- No check looks at the command channel. -/
theorem firstCheck_withCmds (i : Instr) (s : State) (ws : List CmdWord) :
    firstCheck i { s with cmds := ws } = firstCheck i s := rfl

/-- Settles O25: the response tells that the word was illegal or its command refused. -/
theorem refusedCommandsChangeNothing : Obligations.RefusedCommandsChangeNothing := by
  intro s t w rest e rop data hw hstep hr hok htable
  rcases step_next hstep with ⟨hnil, -⟩ | ⟨w', rest', hw', hcases⟩
  · rw [hnil] at hw; cases hw
  · rw [hw] at hw'
    cases hw'
    rcases hcases with rfl | ⟨i, -, hexec⟩
    · rfl
    · obtain ⟨-, rfl⟩ := (exec_next hexec).refused_of_rsps hr hok htable
      rfl

/-- Settles O26: the check that fails is what the command ends with, and with none a decoded command is not refused. -/
theorem firstFailingCheckIsReported : Obligations.FirstFailingCheckIsReported := by
  intro s w rest hw
  split
  · next e he => exact stepAnswersIllegalWords s w rest e hw he
  · next i hi =>
    obtain ⟨-, hop, -⟩ := decode_eq_ok hi
    rw [step_of_decoded hw hi, hop]
    split
    · next e he => exact exec_of_firstCheck he
    · next hnone =>
      intro t ht
      obtain ⟨e, data, hr, hok | htable | ⟨hcheck | ⟨-, hwf⟩, -⟩⟩ := (exec_next ht).response_cases
      · exact ⟨e, data, hr, .inl hok⟩
      · exact ⟨e, data, hr, .inr htable⟩
      · rw [firstCheck_withCmds, hnone] at hcheck; cases hcheck
      · rw [decode_wf hi] at hwf; cases hwf

/-! ### In FAULT (R184) -/

/-- Settles O45: in FAULT a command other than SRESET is refused or only reads. -/
theorem onlyResetLeavesFault : Obligations.OnlyResetLeavesFault := by
  refine ⟨fun i s t hf h => ?_, fun s => ⟨_, exec_sreset s, (s.cleared_clear.push _).lifecycle⟩,
    fun p => (State.cleared_hardReset p).lifecycle⟩
  cases exec_next h with
  | refused e _ _ hcheck heq => exact .inr ⟨refused_ne_sreset hcheck, by rw [heq]; rfl⟩
  | read data hreads heq =>
    refine .inr ⟨?_, by rw [heq]; rfl⟩
    rintro rfl
    cases hreads
  | sreset hi heq => exact .inl ⟨hi, by rw [heq]; exact (s.cleared_clear.push _).lifecycle⟩
  | config _ _ _ _ hno | release _ hno | bufwr _ _ _ hno | insert _ _ _ _ hno | tableFault _ _ _ _ hno =>
    rw [hf] at hno; cases hno

/-! ### The table fault (R180) -/

/-- A command that ends with an evaluation takes the table fault at a table offset exactly when the evaluation does,
where what follows the evaluation does not fault. -/
theorem finish_eq_tableFault_iff {α : Type} {r : Sweep α} {op : Byte} {s : State} {run : α → Result} {off : Nat}
    (hlt : s.tableBytes < 2 ^ 64) (hoff : ∀ o, r = .tableFault o → o < s.tableBytes)
    (hrun : ∀ a t, run a = .next t → t.fault = false) :
    r.finish op s run = .next ((s.faultedAt off).push ⟨.eTable, op, 0⟩) ∧ off < s.tableBytes ↔ r = .tableFault off := by
  constructor
  · rintro ⟨h, ho⟩
    rcases Sweep.finish_next h with ⟨a, -, ha⟩ | ⟨o, hr, ht⟩
    · cases hrun a _ ha
    · have haddr : BitVec.ofNat 64 off = BitVec.ofNat 64 o := congrArg State.faultAddr ht
      have hnat := congrArg BitVec.toNat haddr
      rw [BitVec.toNat_ofNat, BitVec.toNat_ofNat, Nat.mod_eq_of_lt (ho.trans hlt),
        Nat.mod_eq_of_lt ((hoff o hr).trans hlt)] at hnat
      rw [hr, hnat]
  · rintro rfl
    exact ⟨rfl, hoff off rfl⟩

theorem selectedFlag_eq_true_iff {s : State} {k : Nat} {d : Digest} :
    selectedFlag s k d = .value true ↔ ∃ p, eval s k d = .value p ∧ s.flag p = true := by
  have hread (p : Nat) : readFlag s p = .value true ↔ s.flag p = true := by
    unfold readFlag State.flag
    cases s.memRead (flagOffset s p) <;> simp
  simp only [selectedFlag_eq_value, hread]

/-- INSERT's phase 2 does not fault. -/
theorem setFlags_finish_fault {ps : List Nat} {s t : State} {op : Byte} (hf : s.fault = false)
    (h : ((setFlags ps s).finish op s fun s' => respond op 0 s') = .next t) : t.fault = false := by
  rcases Sweep.finish_next h with ⟨u, hu, hnext⟩ | ⟨off, hoff, -⟩
  · obtain ⟨m, rfl⟩ := setFlags_mem hu
    cases hnext
    exact hf
  · exact absurd hoff (setFlags_ne_tableFault ps s off)

/-- Settles O43: each of the three commands ends with an evaluation, whose table faults name the first bad index. -/
theorem tableFaultIsTakenExactlyWhen : Obligations.TableFaultIsTakenExactlyWhen := by
  intro s d off h ha hf
  have hlt : s.tableBytes < 2 ^ 64 := s.tableBytes_le.trans_lt h.bufBytes_le.2
  refine ⟨fun k hk => ?_, ?_, ?_⟩
  · have hexec : exec (.hasheval k d) s = _ := execHasheval_inRange d hf ha hk
    rw [hexec]
    exact finish_eq_tableFault_iff hlt (fun o ho => (eval_fault_offset ha hk ho).1) fun p t ht => by cases ht; exact hf
  · have hexec : exec (.insert d) s = _ := execInsert_active d hf ha
    rw [hexec, ← positionsUpTo_eq_tableFault]
    refine finish_eq_tableFault_iff hlt (fun o ho => ?_) fun ps t => setFlags_finish_fault hf
    obtain ⟨k, hk, he, -⟩ := positionsUpTo_eq_tableFault.1 ho
    exact (eval_fault_offset ha hk he).1
  · have hexec : exec (.query d) s = _ := execQuery_active d hf ha
    simp only [hexec, ← selectedFlag_eq_true_iff, ← queryUpTo_eq_tableFault]
    refine finish_eq_tableFault_iff hlt (fun o ho => ?_) fun present t ht => by cases ht; exact hf
    obtain ⟨k, hk, he, -⟩ := queryUpTo_eq_tableFault.1 ho
    exact (eval_fault_offset ha hk he).1

end Sys2Proof.Machine
end

section
/-! SUPPORT. The encoding in both directions (30_encoding.md sections 2 to 4), and what a text or a pseudo-instruction
stands for (section 7). -/

namespace Sys2Proof

/-! ### Decode and encode -/

/-- The decoder reads a command back off its packed word (R83, R89). -/
theorem decode_encode {i : Instr} (h : i.wf = true) : decode (encode i) = .ok i := by
  cases i with
  | rdreg n =>
    have hn : n ≤ 0x09#8 := of_decide_eq_true h
    simp [encode, decode, decodeRdreg, unlessUnused, opField_pack, bField_pack, zField_pack, aField_pack, dField_pack,
      hn]
  | _ =>
    simp [encode, decode, unlessUnused, opField_pack, bField_pack, zField_pack, aField_pack, dField_pack]

/-- The encoder packs the fields the decoder took: those the command does not use are 0 (R91). -/
theorem encode_of_decode {w : CmdWord} {i : Instr} (h : decode w = .ok i) : encode i = w := by
  obtain ⟨hz, hop, hf⟩ := decode_eq_ok h
  rw [← packFields_fields hz, hop]
  cases i with
  | validate | config | bufwr =>
    obtain ⟨rfl, rfl, hd⟩ := hf
    rw [hd]; rfl
  | release | sreset =>
    obtain ⟨hb, ha, hd⟩ := hf
    rw [hb, ha, hd]; rfl
  | rdreg =>
    obtain ⟨rfl, -, ha, hd⟩ := hf
    rw [ha, hd]; rfl
  | bufrd =>
    obtain ⟨rfl, hb, hd⟩ := hf
    rw [hb, hd]; rfl
  | hasheval =>
    obtain ⟨rfl, rfl, hb⟩ := hf
    rw [hb]; rfl
  | insert | query =>
    obtain ⟨rfl, hb, ha⟩ := hf
    rw [hb, ha]; rfl

end Sys2Proof

namespace Sys2Proof.Machine

/-- Settles O4: each field of the packed word is the operand it was packed from. -/
theorem decodeOfEncodeIsTheCommand : Obligations.DecodeOfEncodeIsTheCommand :=
  fun _ => decode_encode

/-- Settles O5: a decoded word is the packing of its own fields. -/
theorem decodedWordsAreEncodings : Obligations.DecodedWordsAreEncodings :=
  fun _ _ h => ⟨decode_wf h, encode_of_decode h⟩

/-! ### The response word (R85) -/

/-- Two words side by side as one number. -/
theorem toNat_append_eq_add {n m : Nat} (x : BitVec n) (y : BitVec m) :
    (x ++ y).toNat = x.toNat * 2 ^ m + y.toNat := by
  rw [BitVec.toNat_append, ← Nat.shiftLeft_add_eq_or_of_lt y.isLt, Nat.shiftLeft_eq]

/-- Settles O13: the word is three fields side by side. -/
theorem responseWordHoldsItsFields : Obligations.ResponseWordHoldsItsFields := by
  refine ⟨fun r => ?_, by decide⟩
  rw [Response.word, toNat_append_eq_add, toNat_append_eq_add]
  ring

/-! ### Pseudo-instructions (R99) -/

/-- BUFWR of a table byte is accepted when the offset and the byte fit their fields. -/
theorem asmBufwr_tableOffset {env : AsmEnv} {L : Nat} (hL : env.lookup "L" = some (L : Int)) (k i idx : Nat) :
    asmBufwr env (asmTableOffset (.num k) (.num i)) (.num idx) =
      if k * L + i < 2 ^ 64 ∧ idx < 256 then some (.bufwr (BitVec.ofNat 64 (k * L + i)) (BitVec.ofNat 8 idx))
      else none := by
  rw [asmBufwr, asmOperand_tableOffset env L k i 64 hL, asmOperand_num, show 2 ^ 8 = 256 from rfl]
  by_cases hoff : k * L + i < 2 ^ 64
  · by_cases hidx : idx < 256
    · rw [if_pos hoff, if_pos hidx, if_pos (And.intro hoff hidx)]; rfl
    · rw [if_pos hoff, if_neg hidx, if_neg (not_and_of_not_right _ hidx)]; rfl
  · rw [if_neg hoff, if_neg (not_and_of_not_left _ hoff)]; rfl

/-- RUN's commands from position `i` on: one BUFWR for each index, when each index and the last offset fit. -/
theorem asmRunFrom_num {env : AsmEnv} {L : Nat} (hL : env.lookup "L" = some (L : Int)) (k i : Nat)
    (idxs : List Nat) :
    asmRunFrom env (.num k) i (idxs.map AsmExpr.num) =
      if (∀ idx ∈ idxs, idx < 256) ∧ (idxs = [] ∨ k * L + i + (idxs.length - 1) < 2 ^ 64) then
        some (idxs.mapIdx fun j idx => .bufwr (BitVec.ofNat 64 (k * L + (i + j))) (BitVec.ofNat 8 idx))
      else none := by
  induction idxs generalizing i with
  | nil => simp [asmRunFrom]
  | cons idx rest ih =>
    have hfits : ((∀ x ∈ idx :: rest, x < 256) ∧
        (idx :: rest = [] ∨ k * L + i + ((idx :: rest).length - 1) < 2 ^ 64)) ↔
        (k * L + i < 2 ^ 64 ∧ idx < 256) ∧
          (∀ x ∈ rest, x < 256) ∧ (rest = [] ∨ k * L + (i + 1) + (rest.length - 1) < 2 ^ 64) := by
      cases rest with
      | nil => simp [and_comm]
      | cons y ys =>
        have hlast : k * L + i + (ys.length + 1) < 2 ^ 64 ↔
            k * L + i < 2 ^ 64 ∧ k * L + (i + 1) + ys.length < 2 ^ 64 := by omega
        simp only [List.forall_mem_cons, List.length_cons, reduceCtorEq, false_or, Nat.add_sub_cancel, hlast]
        tauto
    rw [List.map_cons, asmRunFrom, asmBufwr_tableOffset hL, ih, if_congr hfits rfl rfl, List.mapIdx_cons]
    by_cases hhead : k * L + i < 2 ^ 64 ∧ idx < 256
    · rw [if_pos hhead]
      by_cases hrest : (∀ x ∈ rest, x < 256) ∧ (rest = [] ∨ k * L + (i + 1) + (rest.length - 1) < 2 ^ 64)
      · rw [if_pos hrest, if_pos ⟨hhead, hrest⟩]
        simp [Nat.add_assoc, Nat.add_comm 1]
      · rw [if_neg hrest, if_neg (not_and_of_not_right _ hrest)]
        rfl
    · rw [if_neg hhead, if_neg (not_and_of_not_left _ hhead)]
      rfl

/-- Settles O14: TBLWR is one BUFWR of a table byte, and RUN is accepted when each of its BUFWRs is. -/
theorem pseudoInstructionsExpand : Obligations.PseudoInstructionsExpand := by
  refine fun env L hL => ⟨rfl, fun k i idx hoff hidx => ?_, fun k idxs => ?_⟩
  · rw [asmCommands, asmBufwr_tableOffset hL, if_pos ⟨hoff, hidx⟩]
    rfl
  · have hlen : (AsmExpr.name "L").value env = some ((idxs.map AsmExpr.num).length : Int) ↔ idxs.length = L := by
      rw [AsmExpr.value, hL, List.length_map, Option.some_inj, Nat.cast_inj, eq_comm]
    rw [asmCommands, asmRunFrom_num hL]
    by_cases hl : idxs.length = L
    · rw [if_pos (hlen.2 hl)]
      subst hl
      simp [List.length_eq_zero_iff]
    · rw [if_neg (mt hlen.1 hl), if_neg fun h => hl h.1]

/-- Settles O8, by evaluating the assembler on the spec's lines and the encoder on its commands. -/
theorem workedLinesAssemble : Obligations.WorkedLinesAssemble := by
  unfold Obligations.WorkedLinesAssemble
  decide

end Sys2Proof.Machine
end

section
/-! SUPPORT. What a step and its command answer and leave unchanged: the word taken, the one response with a status of
the command's row, the read-only commands, and VALIDATE, CONFIG and RELEASE as a whole. -/

namespace Sys2Proof.Machine

/-! ### The word a step takes -/

/-- Settles O1: the oldest word is the one a step takes. -/
theorem stepRunsTheDecodedCommand : Obligations.StepRunsTheDecodedCommand :=
  fun _ _ _ _ => step_of_decoded

/-- Settles O3: there is no word to take. -/
theorem stepIdlesOnAnEmptyChannel : Obligations.StepIdlesOnAnEmptyChannel := by
  intro s hs
  rw [step, State.takeCommand, hs]

/-! ### The response and what no command changes -/

/-- No command changes the engine's parameters. -/
theorem Answered.params_eq {i : Instr} {s t : State} (h : Answered i s t) : t.params = s.params := by
  cases h with
  | insert d ps s' _ _ _ _ hset heq =>
    obtain ⟨m, rfl⟩ := setFlags_mem hset
    rw [heq]
    rfl
  | refused _ _ _ _ heq | read _ _ heq | config _ _ _ _ _ _ _ _ heq | release _ _ _ heq | sreset _ heq
  | bufwr _ _ _ _ _ _ heq | tableFault _ _ _ _ _ _ _ _ heq =>
    rw [heq]
    rfl

/-- Settles O48: an illegal word and a command each hand over one response, which copies the word's `op`. -/
theorem oneResponsePerCommandAndParametersFixed : Obligations.OneResponsePerCommandAndParametersFixed := by
  intro s t hstep
  rcases step_next hstep with ⟨hnil, rfl⟩ | ⟨w, rest, hw, rfl | ⟨i, hdec, hexec⟩⟩
  · exact ⟨rfl, .inl ⟨hnil, rfl⟩⟩
  · exact ⟨rfl, .inr ⟨w, _, hw, rfl, Response.word_rop _⟩⟩
  · have ht := exec_next hexec
    obtain ⟨e, data, hr, -⟩ := ht.response_cases
    obtain ⟨-, hop, -⟩ := decode_eq_ok hdec
    exact ⟨ht.params_eq, .inr ⟨w, _, by rw [ht.cmds_eq, hw], hr, (Response.word_rop _).trans hop.symm⟩⟩

/-! ### The statuses of a command's row (R192) -/

theorem mayEndWith_ok (i : Instr) : mayEndWith i .ok = true := by
  cases i <;> rfl

/-- A check that fails has a status of the command's row. -/
theorem mayEndWith_of_firstCheck {i : Instr} {s : State} {e : Status} (h : firstCheck i s = some e) :
    mayEndWith i e = true := by
  rcases firstCheck_eq_some_iff.1 h with ⟨rfl, -, hskip⟩ | ⟨rfl, -, hstate⟩ | ⟨-, -, hoperand⟩
  · cases i with
    | sreset | rdreg => cases hskip
    | validate | config | release | bufrd | bufwr | hasheval | insert | query => rfl
  · cases i with
    | validate | rdreg | sreset => cases hstate
    | config | release | bufrd | bufwr | hasheval | insert | query => rfl
  · cases i with
    | validate hc l2 =>
      rcases operandCheck_validate_eq_some.1 hoperand with ⟨rfl, -⟩ | ⟨rfl, -⟩ <;> rfl
    | config hc l2 =>
      rcases operandCheck_config_eq_some.1 hoperand with hvalidate | ⟨rfl, -⟩
      · rcases operandCheck_validate_eq_some.1 hvalidate with ⟨rfl, -⟩ | ⟨rfl, -⟩ <;> rfl
      · rfl
    | bufrd | bufwr | hasheval =>
      obtain ⟨-, he⟩ := Option.ite_none_right_eq_some.1 hoperand
      cases he
      rfl
    | release | rdreg | sreset | insert | query => cases hoperand

/-- Settles O27: OK is in every row, E_TABLE in the rows of the commands that evaluate, and a check's status in the row
of the command it checks. -/
theorem commandsEndOnlyWithTheirStatuses : Obligations.CommandsEndOnlyWithTheirStatuses := by
  intro i s t hwf h
  obtain ⟨e, data, hr, rfl | ⟨rfl, rfl, hi⟩ | ⟨hcheck | ⟨-, hnotwf⟩, heq⟩⟩ := (exec_next h).response_cases
  · exact ⟨.ok, data, mayEndWith_ok i, fun hne => absurd rfl hne, hr⟩
  · refine ⟨.eTable, 0, ?_, fun _ => rfl, hr⟩
    rcases hi with ⟨k, d, rfl⟩ | ⟨d, rfl⟩ | ⟨d, rfl⟩ <;> rfl
  · exact ⟨e, 0, mayEndWith_of_firstCheck hcheck, fun _ => rfl, by rw [heq]; rfl⟩
  · rw [hwf] at hnotwf
    cases hnotwf

/-! ### Read-only commands (20_memory.md R68) -/

/-- Settles O47: a command that reads is refused, or answers, or takes the table fault, and then it did not end OK. -/
theorem readOnlyCommandsKeepTheState : Obligations.ReadOnlyCommandsKeepTheState := by
  intro i s t h hi
  cases exec_next h with
  | refused _ _ _ _ heq | read _ _ heq => rw [heq]; rfl
  | config _ _ _ hconfig => subst hconfig; exact hi.elim
  | release hrelease => subst hrelease; exact hi.elim
  | sreset hsreset => subst hsreset; exact hi.elim
  | bufwr _ _ hbufwr => subst hbufwr; exact hi.elim
  | insert _ _ _ hinsert => subst hinsert; exact hi.elim
  | tableFault k off d hev _ _ _ _ heq =>
    subst heq
    rcases hev with ⟨kw, rfl, -⟩ | ⟨rfl, -⟩ | ⟨rfl, -⟩
    · obtain ⟨data, hr⟩ := hi
      cases State.push_status_inj rfl hr
    · exact hi.elim
    · obtain ⟨data, hr⟩ := hi
      cases State.push_status_inj rfl hr

/-! ### VALIDATE, CONFIG and RELEASE -/

/-- A size Cap answers fits the response's data field. -/
theorem cap_ok_toNat {p : Config.Params} {hc l2 size : Nat} (h : cap p hc l2 = .ok size) :
    (BitVec.ofNat 64 size).toNat = size := by
  obtain ⟨-, -, -, -, hmax⟩ := cap_eq_ok h
  exact Nat.mod_eq_of_lt (hmax.trans_lt (sizeMax_lt p))

/-- Settles O17: outside FAULT nothing comes before Cap. -/
theorem validateAnswersCap : Obligations.ValidateAnswersCap := by
  refine fun s hc l2 hf => ⟨(unlessFaulted_of hf _ _).trans ?_, fun size => cap_ok_toNat⟩
  cases cap s.params hc.toNat l2.toNat <;> rfl

/-- Settles O18: the configured state, handed over with its size. -/
theorem configCreatesTheFilter : Obligations.ConfigCreatesTheFilter := by
  intro s hc l2 size hf ha hcap hfit
  have hbuf : (s.configured hc l2 size).bufBytes = size := State.configured_bufBytes hcap
  exact ⟨_, execConfig_ok hf ha hcap hfit, rfl, cap_ok_toNat hcap, hbuf, State.tableBytes_active rfl,
    fun off ho => State.memRead_configured hcap hfit (hbuf.symm ▸ ho)⟩

/-- Only FAULT_ADDR shows `fault_addr`. -/
theorem readReg_withFaultAddr {r : ControlReg} (hr : r ≠ .faultAddr) (s : State) (a : U64) :
    readReg r { s with faultAddr := a } = readReg r s := by
  cases r with
  | faultAddr => exact absurd rfl hr
  | _ => rfl

/-- The released state is cleared, `fault_addr` aside. -/
theorem State.cleared_released {s : State} (hf : s.fault = false) :
    State.Cleared { s.released with faultAddr := 0 } := ⟨rfl, hf, rfl, rfl, rfl⟩

/-- Settles O28: the registers of the filter read 0 as after reset. -/
theorem releaseDestroysTheFilter : Obligations.ReleaseDestroysTheFilter := by
  refine fun s hf ha => ⟨_, withFilter_of hf ha _ _, rfl, State.lifecycle_empty rfl hf, fun r hr => ?_⟩
  obtain ⟨hcap, hmem, haddr⟩ : r ≠ .cap ∧ r ≠ .memsz ∧ r ≠ .faultAddr := by
    refine ⟨?_, ?_, ?_⟩ <;> (rintro rfl; revert hr; decide)
  refine (readReg_withFaultAddr haddr _ 0).symm.trans (((State.cleared_released hf).push _).readReg hcap hmem)

end Sys2Proof.Machine
end

section
/-! SUPPORT. The invariant (10_state.md R29): every command keeps it, both resets give it, and under it every word is
answered. -/

namespace Sys2Proof.Machine

/-! ### What keeps the invariant -/

/-- A state whose scalars are 0 and that lists no byte meets the invariant. -/
theorem State.Cleared.inv {s : State} (h : s.Cleared) (hp : ParamsLegal s.params) (hm : s.mem = []) : s.Inv where
  params := hp
  inactive _ := ⟨h.hashCount, h.log2Bits, h.fault⟩
  hashCount ha := by rw [h.active] at ha; cases ha
  log2Bits ha := by rw [h.active] at ha; cases ha
  size ha := by rw [h.active] at ha; cases ha
  noFault _ := h.faultAddr
  faulted hf := by rw [h.fault] at hf; cases hf
  memWf := by rw [hm]; rfl
  memInside c hc := by rw [hm] at hc; cases hc

/-- An EMPTY engine lists no byte. -/
theorem State.Inv.mem_inactive {s : State} (h : s.Inv) (ha : s.active = false) : s.mem = [] :=
  List.eq_nil_iff_forall_not_mem.2 fun c hc => by
    have hlt := h.memInside c hc
    rw [State.bufBytes_inactive ha] at hlt
    exact Nat.not_lt_zero _ hlt

/-- The released state is cleared: while `fault` is 0, `fault_addr` is 0. -/
theorem State.Inv.released {s : State} (h : s.Inv) (hf : s.fault = false) : s.released.Inv :=
  State.Cleared.inv ⟨rfl, hf, rfl, rfl, h.noFault hf⟩ h.params rfl

/-- Cap's limits are those of the invariant (R29, 2). -/
theorem State.Inv.configured {s : State} (h : s.Inv) (hf : s.fault = false) (ha : s.active = false) {hc : U64}
    {l2 : Byte} {size : Nat} (hcap : cap s.params hc.toNat l2.toNat = .ok size) (hfit : size ≤ s.params.memBytes) :
    (s.configured hc l2 size).Inv := by
  obtain ⟨hpos, hmax, hl2, -, hsize⟩ := cap_eq_ok hcap
  have hmem : (s.configured hc l2 size).mem = [] := by rw [State.configured_mem, h.mem_inactive ha]; rfl
  exact
    { params := h.params
      inactive := fun hina => by cases hina
      hashCount := fun _ => ⟨hpos, hmax⟩
      log2Bits := fun _ => hl2
      size := fun _ => by rw [State.configured_bufBytes hcap]; exact le_min hsize hfit
      noFault := h.noFault
      faulted := fun hfault => absurd hfault (by simp [hf])
      memWf := by rw [hmem]; rfl
      memInside := fun c hc => by rw [hmem] at hc; cases hc }

/-- A table fault saves the offset of a table byte of 160 or more (R29, 3). -/
theorem State.Inv.faultedAt {s : State} (h : s.Inv) (ha : s.active = true) {k off : Nat} {d : Digest}
    (hk : k < s.hashCount.toNat) (hfault : eval s k d = .tableFault off) : (s.faultedAt off).Inv := by
  obtain ⟨hlt, b, hb, hbad⟩ := eval_fault_offset ha hk hfault
  have hoff : (BitVec.ofNat 64 off).toNat = off :=
    Nat.mod_eq_of_lt (hlt.trans (s.tableBytes_le.trans_lt h.bufBytes_le.2))
  exact
    { params := h.params
      inactive := fun hina => absurd hina (by simp [ha])
      hashCount := h.hashCount
      log2Bits := h.log2Bits
      size := h.size
      noFault := fun hno => by cases hno
      faulted := fun _ => by
        rw [State.faultedAt_faultAddr, hoff]
        exact ⟨hlt, by simp [hb, digestW, hbad]⟩
      memWf := h.memWf
      memInside := h.memInside }

/-- Every command keeps the invariant. -/
theorem State.Inv.of_exec {i : Instr} {s t : State} (h : s.Inv) (hexec : exec i s = .next t) : t.Inv := by
  cases exec_next hexec with
  | refused _ _ _ _ heq | read _ _ heq => exact heq ▸ h.push _
  | config _ _ _ _ hf ha hcap hfit heq => exact heq ▸ (h.configured hf ha hcap hfit).push _
  | release _ hf _ heq => exact heq ▸ (h.released hf).push _
  | sreset _ heq => exact heq ▸ (s.cleared_clear.inv h.params rfl).push _
  | bufwr off byte _ hf _ hin heq =>
    refine heq ▸ (h.withMem hf (Memory.wf_write h.memWf _ _) fun c hc => ?_).push _
    exact (Memory.mem_write hc).symm.imp_right fun hoff : c.1 = off.toNat => hoff ▸ hin
  | insert _ _ s' _ hf _ hps hset heq =>
    obtain ⟨hs', hwf, hinside, -⟩ := setFlags_setsFlags h.memWf hps hset
    have hinv : s'.Inv := by rw [hs']; exact h.withMem hf hwf hinside
    exact heq ▸ hinv.push _
  | tableFault _ _ _ _ _ ha hk hfault heq => exact heq ▸ (h.faultedAt ha hk hfault).push _

/-- Every step keeps the invariant. -/
theorem State.Inv.of_step {s t : State} (h : s.Inv) (hstep : step s = .next t) : t.Inv := by
  rcases step_next hstep with ⟨-, rfl⟩ | ⟨w, rest, -, rfl | ⟨i, -, hexec⟩⟩
  · exact h
  · exact (h.withCmds rest).push _
  · exact (h.withCmds rest).of_exec hexec

theorem State.inv_hardReset {p : Config.Params} (hp : ParamsLegal p) : (State.hardReset p).Inv :=
  (State.cleared_hardReset p).inv hp rfl

/-- Settles O49: a step keeps the invariant command by command, and a reset state meets it. -/
theorem stepKeepsTheInvariant : Obligations.StepKeepsTheInvariant :=
  ⟨fun _ _ => State.Inv.of_step, fun _ => State.inv_hardReset⟩

/-- Settles O50: reset is a hardware reset, and the parameters it fixes are legal. -/
theorem resetMeetsTheInvariant : Obligations.ResetMeetsTheInvariant :=
  ⟨State.reset_eq_hardReset, State.reset_eq_hardReset ▸ State.inv_hardReset ⟨by decide, by decide, by decide⟩⟩

/-! ### Every command ends in a next state -/

/-- A command that is refused or runs to a next state has a next state. -/
theorem unlessFaulted_total {op : Byte} {s : State} {run : Result} (h : s.fault = false → ∃ t, run = .next t) :
    ∃ t, unlessFaulted op s run = .next t := by
  cases hf : s.fault with
  | true => exact ⟨_, unlessFaulted_faulted hf op run⟩
  | false => rw [unlessFaulted_of hf]; exact h hf

theorem withFilter_total {op : Byte} {s : State} {run : Result} (h : s.active = true → ∃ t, run = .next t) :
    ∃ t, withFilter op s run = .next t :=
  unlessFaulted_total fun _ => by
    cases ha : s.active with
    | true => exact h ha
    | false => exact ⟨_, rfl⟩

theorem unlessOutOfRange_total {op : Byte} {off : U64} {s : State} {run : Result}
    (h : off.toNat < s.bufBytes → ∃ t, run = .next t) : ∃ t, unlessOutOfRange op off s run = .next t := by
  unfold unlessOutOfRange
  split
  · exact ⟨_, rfl⟩
  · next hin => exact h (Nat.lt_of_not_le hin)

/-- An evaluation that does not stop at a missing byte, followed by what has a next state, has a next state. -/
theorem Sweep.finish_total {α : Type} {r : Sweep α} {op : Byte} {s : State} {run : α → Result}
    (hr : ∀ off, r ≠ .outside off) (hrun : ∀ a, r = .value a → ∃ t, run a = .next t) :
    ∃ t, r.finish op s run = .next t := by
  cases r with
  | value a => exact hrun a rfl
  | tableFault off => exact ⟨_, rfl⟩
  | outside off => exact absurd rfl (hr off)

theorem State.Inv.eval_ne_outside {s : State} (h : s.Inv) (ha : s.active = true) {k : Nat}
    (hk : k < s.hashCount.toNat) (d : Digest) (off : Nat) : eval s k d ≠ .outside off := by
  rcases h.eval_total ha hk d with ⟨p, he⟩ | ⟨o, he⟩ <;> simp [he]

theorem State.Inv.selectedFlag_ne_outside {s : State} (h : s.Inv) (ha : s.active = true) {k : Nat}
    (hk : k < s.hashCount.toNat) (d : Digest) (off : Nat) : selectedFlag s k d ≠ .outside off := by
  rcases h.selectedFlag_total ha hk d with ⟨x, he⟩ | ⟨o, he⟩ <;> simp [he]

/-- Under the invariant no command stops the machine. -/
theorem State.Inv.exec_total {s : State} (h : s.Inv) (i : Instr) : ∃ t, exec i s = .next t := by
  cases i with
  | validate hc l2 =>
    refine unlessFaulted_total fun _ => ?_
    cases cap s.params hc.toNat l2.toNat <;> exact ⟨_, rfl⟩
  | config hc l2 =>
    refine unlessFaulted_total fun _ => ?_
    cases s.active with
    | true => exact ⟨_, rfl⟩
    | false =>
      cases cap s.params hc.toNat l2.toNat with
      | invalidParameter | parametersTooLarge => exact ⟨_, rfl⟩
      | ok size => by_cases hbig : s.params.memBytes < size <;> simp [hbig, raise, respond]
  | release => exact withFilter_total fun _ => ⟨_, rfl⟩
  | rdreg n =>
    change ∃ t, execRdreg n s = .next t
    unfold execRdreg
    split <;> exact ⟨_, rfl⟩
  | sreset => exact ⟨_, exec_sreset s⟩
  | bufrd off =>
    refine withFilter_total fun _ => unlessOutOfRange_total fun hin => ?_
    rw [h.memRead hin]
    exact ⟨_, rfl⟩
  | bufwr off byte =>
    refine withFilter_total fun _ => unlessOutOfRange_total fun hin => ?_
    rw [State.memWrite_of_inBuffer (h.inBuffer hin)]
    exact ⟨_, rfl⟩
  | hasheval k d =>
    refine withFilter_total fun ha => ?_
    split
    · exact ⟨_, rfl⟩
    · next hk => exact Sweep.finish_total (h.eval_ne_outside ha (Nat.lt_of_not_le hk) d) fun p _ => ⟨_, rfl⟩
  | insert d =>
    rcases h.insert_cases d with ⟨e, he⟩ | ⟨hf, ha, k, off, hk, he, hb⟩ | ⟨hf, ha, hv⟩
    · exact ⟨_, exec_of_firstCheck he⟩
    · exact ⟨_, execInsert_tableFault ha hf hk he hb⟩
    · obtain ⟨ps, t, -, -, ht⟩ := h.execInsert_values ha hf hv
      exact ⟨_, ht⟩
  | query d =>
    refine withFilter_total fun ha => Sweep.finish_total (fun off => ?_) fun present _ => ⟨_, rfl⟩
    exact queryUpTo_ne_outside fun k hk => h.selectedFlag_ne_outside ha hk d

/-- Settles O51: a word is illegal and refused, or its command ends in a next state with one response. -/
theorem everyCommandIsAnswered : Obligations.EveryCommandIsAnswered := by
  intro s h
  obtain ⟨t, ht⟩ : ∃ t, step s = .next t := by
    cases hw : s.cmds with
    | nil => exact ⟨s, stepIdlesOnAnEmptyChannel s hw⟩
    | cons w rest =>
      cases hdec : decode w with
      | error e => exact ⟨_, stepAnswersIllegalWords s w rest e hw hdec⟩
      | ok i => rw [step_of_decoded hw hdec]; exact (h.withCmds rest).exec_total i
  refine ⟨t, ht, fun w rest hw => ?_⟩
  obtain ⟨-, ⟨hnil, -⟩ | ⟨w', r, hw', hr, -⟩⟩ := oneResponsePerCommandAndParametersFixed s t ht
  · rw [hw] at hnil
    cases hnil
  · rw [hw] at hw'
    cases hw'
    exact ⟨rfl, r, hr⟩

end Sys2Proof.Machine
end

section
/-! SUPPORT. What a host cannot observe: the number of lanes (43_engine.md R156) and the bytes outside the active
buffer (93_implementation_defined.md U4). Both follow from one simulation: a relation between states that look alike
to every command, and that every update of the engine keeps, is kept by every step. -/

namespace Sys2Proof.Machine

/-! ### States that look alike -/

/-- The states agree in what a command reads: all but the number of lanes, the responses, and the bytes outside the
buffer. -/
structure LookAlike (s s' : State) : Prop where
  sizeW : s'.params.sizeW = s.params.sizeW
  memBytes : s'.params.memBytes = s.params.memBytes
  active : s'.active = s.active
  fault : s'.fault = s.fault
  hashCount : s'.hashCount = s.hashCount
  log2Bits : s'.log2Bits = s.log2Bits
  faultAddr : s'.faultAddr = s.faultAddr
  cmds : s'.cmds = s.cmds
  memRead : ∀ off, s'.memRead off = s.memRead off

section
variable {s s' : State} (h : LookAlike s s')
include h

theorem LookAlike.sizeWBits : sizeWBits s'.params = sizeWBits s.params := by
  rw [Machine.sizeWBits, Machine.sizeWBits, h.sizeW]

theorem LookAlike.tableBytes : s'.tableBytes = s.tableBytes := by
  simp only [State.tableBytes, h.active, h.hashCount, h.log2Bits]

theorem LookAlike.bufBytes : s'.bufBytes = s.bufBytes := by
  simp only [State.bufBytes, State.bvBytes, h.tableBytes, h.active, h.log2Bits]

theorem LookAlike.inBuffer (off : Nat) : s'.inBuffer off = s.inBuffer off := by
  simp only [State.inBuffer, h.bufBytes, h.memBytes]

theorem LookAlike.flagOffset (n : Nat) : flagOffset s' n = flagOffset s n := by
  simp only [Machine.flagOffset, h.tableBytes]

theorem LookAlike.cap (hc l2 : Nat) : cap s'.params hc l2 = cap s.params hc l2 := by
  have hsizeW (p : Config.Params) : Machine.cap p = Machine.cap ⟨p.sizeW, 0, 0⟩ :=
    cap_eq_cap_of_sizeW p.sizeW p.memBytes p.lanes
  rw [hsizeW s'.params, hsizeW s.params, h.sizeW]

theorem LookAlike.readReg (r : ControlReg) : readReg r s' = readReg r s := by
  cases r with
  | cap => simp only [Machine.readReg, capReg, log2Max, h.sizeWBits]
  | memsz => simp only [Machine.readReg, h.memBytes]
  | status => simp only [Machine.readReg, statusReg, h.active, h.fault]
  | hashCount => exact h.hashCount
  | log2Bits => simp only [Machine.readReg, h.log2Bits]
  | bitCountLo | bitCountHi => simp only [Machine.readReg, State.bitCount, h.active, h.log2Bits]
  | bufBytes => simp only [Machine.readReg, h.bufBytes]
  | tableBytes => simp only [Machine.readReg, h.tableBytes]
  | faultAddr => exact h.faultAddr

theorem LookAlike.eval (k : Nat) (d : Digest) : eval s' k d = eval s k d :=
  eval_congr h.log2Bits fun _ _ => h.memRead _

theorem LookAlike.selectedFlag (k : Nat) (d : Digest) : selectedFlag s' k d = selectedFlag s k d := by
  simp only [Machine.selectedFlag, readFlag, h.eval, h.flagOffset, h.memRead]

end

/-! ### Simulations -/

/-- Related next states, or the same stop. -/
inductive OutcomesRelated (R : State → State → Prop) : Result → Result → Prop where
  | next {t t' : State} (h : R t t') : OutcomesRelated R (.next t) (.next t')
  | fault (f : Fault) : OutcomesRelated R (.fault f) (.fault f)
  | refused (r : Refusal) : OutcomesRelated R (.refused r) (.refused r)

/-- Related values, or the same end of the evaluation. -/
inductive SweepsRelated {α : Type} (Q : α → α → Prop) : Sweep α → Sweep α → Prop where
  | value {a a' : α} (h : Q a a') : SweepsRelated Q (.value a) (.value a')
  | tableFault (off : Nat) : SweepsRelated Q (.tableFault off) (.tableFault off)
  | outside (off : Nat) : SweepsRelated Q (.outside off) (.outside off)

theorem SweepsRelated.refl {α : Type} (r : Sweep α) : SweepsRelated (· = ·) r r := by
  cases r with
  | value a => exact .value rfl
  | tableFault off => exact .tableFault off
  | outside off => exact .outside off

theorem SweepsRelated.bind {α β : Type} {Q : α → α → Prop} {P : β → β → Prop} {r r' : Sweep α} {f f' : α → Sweep β}
    (hr : SweepsRelated Q r r') (hf : ∀ a a', Q a a' → SweepsRelated P (f a) (f' a')) :
    SweepsRelated P (r.bind f) (r'.bind f') := by
  cases hr with
  | value h => exact hf _ _ h
  | tableFault off => exact .tableFault off
  | outside off => exact .outside off

/-- A relation between states that look alike which every update of the engine keeps: a response handed over, the
table fault, the three updates of the lifecycle, a byte written, a word taken. -/
structure Simulation (R : State → State → Prop) : Prop where
  lookAlike : ∀ {s s'}, R s s' → LookAlike s s'
  push : ∀ {s s'} (r : Response), R s s' → R (s.push r) (s'.push r)
  faultedAt : ∀ {s s'} (off : Nat), R s s' → R (s.faultedAt off) (s'.faultedAt off)
  clear : ∀ {s s'}, R s s' → R s.clear s'.clear
  released : ∀ {s s'}, R s s' → R s.released s'.released
  configured : ∀ {s s'} {hc : U64} {l2 : Byte} {size : Nat}, cap s.params hc.toNat l2.toNat = .ok size → R s s' →
    R (s.configured hc l2 size) (s'.configured hc l2 size)
  write : ∀ {s s'} {off : Nat} (v : Byte), s.inBuffer off = true → R s s' →
    R { s with mem := Memory.write s.mem off v } { s' with mem := Memory.write s'.mem off v }
  takeWord : ∀ {s s'} (rest : List CmdWord), R s s' → R { s with cmds := rest } { s' with cmds := rest }

section
variable {R : State → State → Prop} (hR : Simulation R) {s s' : State} (h : R s s')
include hR h

/-! #### The shared operations -/

theorem Simulation.raise (e : Status) (op : Byte) : OutcomesRelated R (raise e op s) (raise e op s') :=
  .next (hR.push _ h)

theorem Simulation.respond (op : Byte) (data : U64) : OutcomesRelated R (respond op data s) (respond op data s') :=
  .next (hR.push _ h)

theorem Simulation.unlessFaulted {op : Byte} {run run' : Result} (hrun : OutcomesRelated R run run') :
    OutcomesRelated R (unlessFaulted op s run) (unlessFaulted op s' run') := by
  rw [Machine.unlessFaulted, Machine.unlessFaulted, (hR.lookAlike h).fault]
  split
  · exact hR.raise h _ _
  · exact hrun

theorem Simulation.withFilter {op : Byte} {run run' : Result} (hrun : OutcomesRelated R run run') :
    OutcomesRelated R (withFilter op s run) (withFilter op s' run') := by
  refine hR.unlessFaulted h ?_
  rw [(hR.lookAlike h).active]
  split
  · exact hrun
  · exact hR.raise h _ _

theorem Simulation.withoutFilter {op : Byte} {run run' : Result} (hrun : OutcomesRelated R run run') :
    OutcomesRelated R (withoutFilter op s run) (withoutFilter op s' run') := by
  refine hR.unlessFaulted h ?_
  rw [(hR.lookAlike h).active]
  split
  · exact hR.raise h _ _
  · exact hrun

theorem Simulation.unlessOutOfRange {op : Byte} {off : U64} {run run' : Result} (hrun : OutcomesRelated R run run') :
    OutcomesRelated R (unlessOutOfRange op off s run) (unlessOutOfRange op off s' run') := by
  rw [Machine.unlessOutOfRange, Machine.unlessOutOfRange, (hR.lookAlike h).bufBytes]
  split
  · exact hR.raise h _ _
  · exact hrun

theorem Simulation.finish {α : Type} {Q : α → α → Prop} {r r' : Sweep α} {op : Byte} {run run' : α → Result}
    (hr : SweepsRelated Q r r') (hrun : ∀ a a', Q a a' → OutcomesRelated R (run a) (run' a')) :
    OutcomesRelated R (r.finish op s run) (r'.finish op s' run') := by
  cases hr with
  | value ha => exact hrun _ _ ha
  | tableFault off => exact hR.raise (hR.faultedAt off h) _ _
  | outside off => exact .fault _

/-- A byte is written in both states, or in neither. -/
theorem Simulation.memWrite_cases (off : Nat) (v : Byte) :
    (∃ t t', s.memWrite off v = some t ∧ s'.memWrite off v = some t' ∧ R t t') ∨
    (s.memWrite off v = none ∧ s'.memWrite off v = none) := by
  simp only [State.memWrite, (hR.lookAlike h).inBuffer]
  cases hin : s.inBuffer off with
  | true => exact .inl ⟨_, _, rfl, rfl, hR.write v hin h⟩
  | false => exact .inr ⟨rfl, rfl⟩

theorem Simulation.setFlag (p : Nat) : SweepsRelated R (setFlag s p) (setFlag s' p) := by
  simp only [Machine.setFlag, (hR.lookAlike h).flagOffset, (hR.lookAlike h).memRead]
  cases s.memRead (flagOffset s p) with
  | none => exact .outside _
  | some b =>
    rcases hR.memWrite_cases h (flagOffset s p) (b ||| flagMask p) with ⟨t, t', ht, ht', hrel⟩ | ⟨ht, ht'⟩
    · simp only [ht, ht']
      exact .value hrel
    · simp only [ht, ht']
      exact .outside _

omit h in
theorem Simulation.setFlags (ps : List Nat) {s s' : State} (h : R s s') :
    SweepsRelated R (setFlags ps s) (setFlags ps s') := by
  induction ps generalizing s s' with
  | nil => exact .value h
  | cons p ps ih => exact (hR.setFlag h p).bind fun _ _ => ih

/-! #### A command, and a step -/

theorem Simulation.exec (i : Instr) : OutcomesRelated R (exec i s) (exec i s') := by
  have hlike := hR.lookAlike h
  cases i with
  | validate hc l2 =>
    refine hR.unlessFaulted h ?_
    rw [hlike.cap]
    cases cap s.params hc.toNat l2.toNat with
    | invalidParameter | parametersTooLarge => exact hR.raise h _ _
    | ok size => exact hR.respond h _ _
  | config hc l2 =>
    refine hR.withoutFilter h ?_
    rw [hlike.cap, hlike.memBytes]
    cases hcap : cap s.params hc.toNat l2.toNat with
    | invalidParameter | parametersTooLarge => exact hR.raise h _ _
    | ok size =>
      dsimp only
      split
      · exact hR.raise h _ _
      · exact hR.respond (hR.configured hcap h) _ _
  | release => exact hR.withFilter h (hR.respond (hR.released h) _ _)
  | rdreg n =>
    change OutcomesRelated R (execRdreg n s) (execRdreg n s')
    rw [execRdreg, execRdreg]
    cases controlReg? n with
    | none => exact hR.raise h _ _
    | some r =>
      dsimp only
      rw [hlike.readReg]
      exact hR.respond h _ _
  | sreset => exact hR.respond (hR.clear h) _ _
  | bufrd off =>
    refine hR.withFilter h (hR.unlessOutOfRange h ?_)
    rw [hlike.memRead]
    cases s.memRead off.toNat with
    | none => exact .fault _
    | some b => exact hR.respond h _ _
  | bufwr off byte =>
    refine hR.withFilter h (hR.unlessOutOfRange h ?_)
    rcases hR.memWrite_cases h off.toNat byte with ⟨t, t', ht, ht', hrel⟩ | ⟨ht, ht'⟩
    · rw [ht, ht']
      exact hR.respond hrel _ _
    · rw [ht, ht']
      exact .fault _
  | hasheval k d =>
    refine hR.withFilter h ?_
    rw [hlike.hashCount, hlike.eval]
    split
    · exact hR.raise h _ _
    · exact hR.finish h (.refl _) fun p p' hp => hp ▸ hR.respond h _ _
  | insert d =>
    refine hR.withFilter h ?_
    rw [hlike.hashCount, positionsUpTo_congr fun k _ => hlike.eval k d]
    refine hR.finish h (.refl _) fun ps ps' hps => ?_
    subst hps
    exact hR.finish h (hR.setFlags ps h) fun t t' ht => hR.respond ht _ _
  | query d =>
    refine hR.withFilter h ?_
    rw [hlike.hashCount, queryUpTo_congr fun k _ => hlike.selectedFlag k d]
    exact hR.finish h (.refl _) fun x x' hx => hx ▸ hR.respond h _ _

/-- Every step keeps a simulation. -/
theorem Simulation.step : OutcomesRelated R (step s) (step s') := by
  have hcmds := (hR.lookAlike h).cmds
  cases hw : s.cmds with
  | nil =>
    rw [stepIdlesOnAnEmptyChannel s hw, stepIdlesOnAnEmptyChannel s' (hcmds.trans hw)]
    exact .next h
  | cons w rest =>
    have hrest := hR.takeWord rest h
    cases hdec : decode w with
    | error e =>
      rw [stepAnswersIllegalWords s w rest e hw hdec, stepAnswersIllegalWords s' w rest e (hcmds.trans hw) hdec]
      exact hR.raise hrest .eIllegal (opField w)
    | ok i =>
      rw [step_of_decoded hw hdec, step_of_decoded (hcmds.trans hw) hdec]
      exact hR.exec hrest i

end

/-! ### The number of lanes (43_engine.md R156) -/

/-- The engine with another number of lanes. -/
def State.withLanes (s : State) (n : Nat) : State := { s with params := { s.params with lanes := n } }

/-- Nothing a command reads or updates is the number of lanes. -/
theorem simulation_withLanes (n : Nat) : Simulation fun s s' => s' = s.withLanes n where
  lookAlike h := by subst h; exact ⟨rfl, rfl, rfl, rfl, rfl, rfl, rfl, rfl, fun _ => rfl⟩
  push _ h := by subst h; rfl
  faultedAt _ h := by subst h; rfl
  clear h := by subst h; rfl
  released h := by subst h; rfl
  configured _ h := by subst h; rfl
  write _ _ h := by subst h; rfl
  takeWord _ h := by subst h; rfl

/-- Settles O56: another number of lanes is a simulation. -/
theorem lanesAreNotArchitectural : Obligations.LanesAreNotArchitectural := by
  intro s n withLanes
  have h := (simulation_withLanes n).step (s := s) rfl
  change step (s.withLanes n) = _
  generalize step s = r, step (s.withLanes n) = r' at h ⊢
  cases h with
  | next ht => exact congrArg Host.Outcome.next ht
  | fault f => rfl
  | refused x => rfl

/-! ### Bytes outside the buffer (93_implementation_defined.md U4) -/

/-- The states differ in what the memory lists at most, and agree on every byte of the buffer. -/
def SameBuffer (s s' : State) : Prop :=
  ∃ m, s' = { s with mem := m } ∧ Memory.wf s.mem = true ∧ Memory.wf m = true ∧
    ∀ off, ({ s with mem := m } : State).memRead off = s.memRead off

/-- A configured filter's buffer was zeroed, whatever the memory held. -/
theorem SameBuffer.configured {s s' : State} {hc : U64} {l2 : Byte} {size : Nat}
    (hcap : cap s.params hc.toNat l2.toNat = .ok size) (h : SameBuffer s s') :
    SameBuffer (s.configured hc l2 size) (s'.configured hc l2 size) := by
  obtain ⟨m, rfl, hw, hwm, -⟩ := h
  refine ⟨Memory.zeroBelow size m, rfl, Memory.wf_zeroBelow hw size, Memory.wf_zeroBelow hwm size, fun off => ?_⟩
  have hread (cs : List Host.Cell) :
      ({ s.configured hc l2 size with mem := Memory.zeroBelow size cs } : State).memRead off =
        if (s.configured hc l2 size).inBuffer off = true then some 0 else none := by
    split
    · next hin =>
      have hlt : off < size := State.configured_bufBytes hcap ▸ (State.inBuffer_iff.1 hin).1
      exact State.memRead_eq_some.2 ⟨hin, (Memory.read_zeroBelow ..).trans (if_pos hlt)⟩
    · next hin => exact State.memRead_eq_none.2 (Bool.eq_false_of_not_eq_true hin)
  exact (hread m).trans (hread s.mem).symm

theorem SameBuffer.write {s s' : State} {off : Nat} (v : Byte) (hin : s.inBuffer off = true) (h : SameBuffer s s') :
    SameBuffer { s with mem := Memory.write s.mem off v } { s' with mem := Memory.write s'.mem off v } := by
  obtain ⟨m, rfl, hw, hwm, hread⟩ := h
  refine ⟨Memory.write m off v, rfl, Memory.wf_write hw _ _, Memory.wf_write hwm _ _, fun a => ?_⟩
  rw [State.memRead_write hw hin]
  refine (State.memRead_write (s := { s with mem := m }) hwm hin v a).trans ?_
  rw [hread]

/-- No command reads a byte outside the buffer, and no update of the engine uncovers one. -/
theorem simulation_sameBuffer : Simulation SameBuffer where
  lookAlike := by
    rintro s _ ⟨m, rfl, -, -, hread⟩
    exact ⟨rfl, rfl, rfl, rfl, rfl, rfl, rfl, rfl, hread⟩
  push := by
    rintro s _ r ⟨m, rfl, h⟩
    exact ⟨m, rfl, h⟩
  faultedAt := by
    rintro s _ off ⟨m, rfl, h⟩
    exact ⟨m, rfl, h⟩
  clear := by
    rintro s _ ⟨m, rfl, -⟩
    exact ⟨[], rfl, rfl, rfl, fun _ => rfl⟩
  released := by
    rintro s _ ⟨m, rfl, -⟩
    exact ⟨[], rfl, rfl, rfl, fun _ => rfl⟩
  configured := SameBuffer.configured
  write := SameBuffer.write
  takeWord := by
    rintro s _ rest ⟨m, rfl, h⟩
    exact ⟨m, rfl, h⟩

/-- Settles O57: agreeing on the buffer is a simulation. -/
theorem unspecifiedBytesAreUnobservable : Obligations.UnspecifiedBytesAreUnobservable := by
  intro s m hw hwm hread
  have h := simulation_sameBuffer.step ⟨m, rfl, hw, hwm, hread⟩
  generalize step s = r, step { s with mem := m } = r' at h ⊢
  cases h with
  | next ht =>
    obtain ⟨m', rfl, ht⟩ := ht
    exact ⟨rfl, ht⟩
  | fault f => rfl
  | refused x => rfl

end Sys2Proof.Machine
end

section
/-! SUPPORT. Access to the buffer (42_buffer.md), and the engine's commands HASHEVAL and QUERY (43_engine.md) with
their offsets and their table faults. -/

namespace Sys2Proof.Machine

/-! ### BUFRD and BUFWR -/

/-- Settles O32: the invariant gives the byte, and BUFRD hands it over. -/
theorem bufrdAnswersTheByte : Obligations.BufrdAnswersTheByte :=
  fun _ _ h ha hf ho => ⟨_, h.memRead ho, execBufrd_ok hf ha (h.memRead ho)⟩

/-- Settles O33: read after write, at the written offset and at every other. -/
theorem bufwrStoresOneByte : Obligations.BufwrStoresOneByte := by
  intro s off byte h ha hf ho
  have hin := h.inBuffer ho
  have hread := State.memRead_write h.memWf hin byte
  exact ⟨_, execBufwr_ok byte hf ha hin, rfl, (hread _).trans (if_pos rfl), fun o hne => (hread o).trans (if_neg hne)⟩

/-- A BUFWR that answers OK wrote a byte of the buffer of an active filter. -/
theorem exec_bufwr_ok {s t : State} {off : U64} {byte : Byte} {data : U64} (h : exec (.bufwr off byte) s = .next t)
    (hr : t.rsps = s.rsps ++ [Response.word ⟨.ok, 0x11, data⟩]) :
    s.fault = false ∧ s.active = true ∧ s.inBuffer off.toNat = true ∧
      t = State.push { s with mem := Memory.write s.mem off.toNat byte } ⟨.ok, 0x11, 0⟩ := by
  cases exec_next h with
  | refused e hok _ _ heq =>
    subst heq
    exact absurd (State.push_status_inj rfl hr).symm hok
  | bufwr off' byte' hi hf ha hin heq =>
    cases hi
    exact ⟨hf, ha, hin, heq⟩
  | read _ hreads _ => cases hreads
  | config _ _ _ hi | release hi | sreset hi | insert _ _ _ hi => cases hi
  | tableFault k off d hev => rcases hev with ⟨_, hi, -⟩ | ⟨hi, -⟩ | ⟨hi, -⟩ <;> cases hi

/-- A stored index as the memory holds it. -/
theorem readIndex_of_memRead {s : State} {k i : Nat} {b : Byte} (h : s.memRead (tableOffset s k i) = some b) :
    readIndex s k i = if 160 ≤ b.toNat then .tableFault (tableOffset s k i) else .value b.toNat := by
  rw [readIndex, h]
  rfl

/-- Settles O35: the byte written is the byte the memory holds for the next command. -/
theorem writesAreSeenByTheNextCommand : Obligations.WritesAreSeenByTheNextCommand := by
  intro s t off byte h hexec hr
  obtain ⟨hf, ha, hin, rfl⟩ := exec_bufwr_ok hexec hr
  have hread : ({ s with mem := Memory.write s.mem off.toNat byte } : State).memRead off.toNat = some byte :=
    (State.memRead_write h.memWf hin byte _).trans (if_pos rfl)
  refine ⟨execBufrd_ok hf ha hread, fun k i _ _ hoff => ?_⟩
  rw [hoff] at hread ⊢
  exact readIndex_of_memRead hread

/-! ### The offsets the engine computes (20_memory.md R65) -/

/-- Settles O37: the runs fill the table region, and the flags' bytes the bit vector behind it. -/
theorem computedOffsetsAreLegal : Obligations.ComputedOffsetsAreLegal :=
  fun _ ha => ⟨fun _ _ => tableOffset_lt ha, fun _ hn => ⟨Nat.le_add_right _ _, flagOffset_lt ha hn⟩⟩

/-! ### HASHEVAL and QUERY -/

/-- Settles O38: the value is below 2^L, and L is at most 64. -/
theorem hashevalAnswersTheHashValue : Obligations.HashevalAnswersTheHashValue := by
  intro s k d p h ha hf hk he
  refine ⟨(execHasheval_inRange d hf ha hk).trans (by rw [he]; rfl), ?_, eval_lt he⟩
  exact Nat.mod_eq_of_lt ((eval_lt he).trans_le (Nat.pow_le_pow_right (by norm_num) h.log2Bits_le))

/-- Under the invariant a function's flag is the flag its value names. -/
theorem State.Inv.selectedFlag_eq {s : State} (h : s.Inv) (ha : s.active = true) {k p : Nat} {d : Digest}
    (he : eval s k d = .value p) : selectedFlag s k d = .value (s.flag p) := by
  have hread := h.memRead (flagOffset_lt ha (eval_lt he))
  refine selectedFlag_eq_value.2 ⟨p, he, readFlag_eq_value.2 ⟨_, hread, ?_⟩⟩
  rw [State.flag, hread]

/-- Settles O42: QUERY's loop ends with the first unset flag, or with none. -/
theorem queryAnswersWhetherEveryFlagIsSet : Obligations.QueryAnswersWhetherEveryFlagIsSet := by
  refine fun s d h ha hf => ⟨fun hset => ?_, fun k p hk hbefore he hunset => ?_⟩
  · refine (execQuery_active d hf ha).trans ?_
    rw [queryUpTo_eq_true.2 fun k hk => selectedFlag_eq_true_iff.2 (hset k hk)]
    rfl
  · have hfirst : selectedFlag s k d = .value false := hunset ▸ h.selectedFlag_eq ha he
    refine (execQuery_active d hf ha).trans ?_
    rw [queryUpTo_eq_false.2 ⟨k, hk, hfirst, fun j hj => selectedFlag_eq_true_iff.2 (hbefore j hj)⟩]
    rfl

/-- Settles O52: a digest present is remembered by every step that runs none of the four commands. -/
theorem stepKeepsDigestsPresent : Obligations.StepKeepsDigestsPresent := by
  intro s t d h ha hf hpresent hstep hi
  obtain ⟨ht, -⟩ := State.Remembers.of_step ⟨ha, hf, h.memWf, hpresent⟩ (fun w hw i => hi w i hw) hstep
  exact ⟨ht.active, ht.noFault, ht.present⟩

/-! ### Where a table fault points (60_exceptions.md section 5) -/

/-- The table fault of a run is at its first bad index. -/
theorem eval_tableFault_lowest {s : State} {k off : Nat} {d : Digest} (h : eval s k d = .tableFault off) :
    k * s.log2Bits.toNat ≤ off ∧ off < k * s.log2Bits.toNat + s.log2Bits.toNat ∧
      ∀ o b, k * s.log2Bits.toNat ≤ o → o < off → s.memRead o = some b → b.toNat < 160 := by
  obtain ⟨i, hi, rfl, -, hbefore⟩ := evalUpTo_eq_tableFault.1 h
  unfold tableOffset
  refine ⟨by omega, by omega, fun o b hle hlt hb => ?_⟩
  obtain ⟨j, rfl⟩ := Nat.exists_eq_add_of_le hle
  obtain ⟨b', hb', hgood⟩ := hbefore j (by omega)
  rw [tableOffset, hb] at hb'
  cases hb'
  exact hgood

/-- A run that evaluates to a value has good indices alone. -/
theorem eval_value_good {s : State} {j o p : Nat} {d : Digest} {b : Byte} (h : eval s j d = .value p)
    (hle : j * s.log2Bits.toNat ≤ o) (hlt : o < j * s.log2Bits.toNat + s.log2Bits.toNat)
    (hb : s.memRead o = some b) : b.toNat < 160 := by
  obtain ⟨i, rfl⟩ := Nat.exists_eq_add_of_le hle
  obtain ⟨-, hindex⟩ := evalUpTo_eq_value.1 h
  obtain ⟨b', hb', hgood, -⟩ := hindex i (by omega)
  rw [tableOffset, hb] at hb'
  cases hb'
  exact hgood

/-- A table fault met after good runs is at the lowest bad index of the tables. -/
theorem eval_tableFault_lowest_of_values {s : State} {k off : Nat} {d : Digest} (h : eval s k d = .tableFault off)
    (hbefore : ∀ j, j < k → ∃ p, eval s j d = .value p) {o : Nat} {b : Byte} (hlt : o < off)
    (hb : s.memRead o = some b) : b.toNat < 160 := by
  obtain ⟨hle, hoff, hrun⟩ := eval_tableFault_lowest h
  by_cases ho : k * s.log2Bits.toNat ≤ o
  · exact hrun o b ho hlt hb
  · have hL : 0 < s.log2Bits.toNat := by omega
    have hj : o / s.log2Bits.toNat < k := Nat.div_lt_of_lt_mul (by rw [Nat.mul_comm]; omega)
    obtain ⟨p, hp⟩ := hbefore _ hj
    exact eval_value_good hp (Nat.div_mul_le_self _ _) (Nat.lt_div_mul_add hL) hb

/-- Settles O44: only a table fault raises `fault`, and it is at the first bad index of the runs evaluated. -/
theorem faultAddressIsTheLowestExamined : Obligations.FaultAddressIsTheLowestExamined := by
  intro i s t h hexec hf ht
  cases exec_next hexec with
  | refused _ _ _ _ heq | read _ _ heq | config _ _ _ _ _ _ _ _ heq | release _ _ _ heq | bufwr _ _ _ _ _ _ heq =>
    subst heq
    exact absurd (hf.symm.trans ht) (by decide)
  | sreset _ heq =>
    subst heq
    cases ht
  | insert _ _ _ _ _ _ _ hset heq =>
    obtain ⟨m, rfl⟩ := setFlags_mem hset
    subst heq
    exact absurd (hf.symm.trans ht) (by decide)
  | tableFault k off d hev _ ha hk hfault heq =>
    obtain ⟨hlt, hbad⟩ := eval_fault_offset ha hk hfault
    have haddr : t.faultAddr.toNat = off := by
      rw [heq]
      exact Nat.mod_eq_of_lt (hlt.trans (s.tableBytes_le.trans_lt h.bufBytes_le.2))
    rw [haddr]
    refine ⟨hbad, hlt, ?_⟩
    rcases hev with ⟨kw, rfl, rfl⟩ | ⟨rfl, hvalues⟩ | ⟨rfl, hflags⟩
    · exact .inl ⟨kw, d, rfl, eval_tableFault_lowest hfault⟩
    · exact .inr ⟨⟨d, .inl rfl⟩, fun o b => eval_tableFault_lowest_of_values hfault hvalues⟩
    · refine .inr ⟨⟨d, .inr rfl⟩, fun o b => eval_tableFault_lowest_of_values hfault fun j hj => ?_⟩
      obtain ⟨p, hp, -⟩ := selectedFlag_eq_value.1 (hflags j hj)
      exact ⟨p, hp⟩

end Sys2Proof.Machine
end

section
/-! SUPPORT. INSERT (43_engine.md section 2): it sets exactly the selected flags, so one more of the same changes
nothing and two commute. -/

namespace Sys2Proof.Machine

/-- With every run good both phases run to their end and set the selected flags. -/
theorem State.Inv.exec_insert_ok {s : State} {d : Digest} (h : s.Inv) (ha : s.active = true) (hf : s.fault = false)
    (hv : ∀ k, k < s.hashCount.toNat → ∃ p, eval s k d = .value p) :
    ∃ m, exec (.insert d) s = .next (State.push { s with mem := m } ⟨.ok, 0x21, 0⟩) ∧
      SetsFlags s { s with mem := m } d := by
  obtain ⟨ps, t, hps, hset, hexec⟩ := h.execInsert_values ha hf hv
  obtain ⟨-, -, -, hflags⟩ := setFlags_setsFlags h.memWf hps hset
  obtain ⟨m, rfl⟩ := setFlags_mem hset
  exact ⟨m, hexec, hflags⟩

/-- Settles O39: the flags INSERT sets are the selected ones. -/
theorem insertSetsExactlyTheSelectedFlags : Obligations.InsertSetsExactlyTheSelectedFlags := by
  intro s d h ha hf hv
  obtain ⟨m, hexec, hflags⟩ := h.exec_insert_ok ha hf hv
  exact ⟨_, hexec, rfl, hflags⟩

/-! ### Setting bits twice -/

/-- Bit `j` of the byte at `off` is the flag of some function's value for `d`. -/
def Selects (s : State) (d : Digest) (off j : Nat) : Prop :=
  ∃ k p, k < s.hashCount.toNat ∧ eval s k d = .value p ∧ off = flagOffset s p ∧ j = p % 8

/-- `t` has the bits in `P` set, and every other bit of the buffer as in `s`. -/
def SetsBits (s t : State) (P : Nat → Nat → Prop) : Prop :=
  (∀ off b, s.memRead off = some b → ∃ b', t.memRead off = some b' ∧
    ∀ j, j < 8 → (b'.getLsbD j = true ↔ b.getLsbD j = true ∨ P off j)) ∧
  (∀ off, s.memRead off = none → t.memRead off = none)

theorem setsFlags_iff_setsBits {s t : State} {d : Digest} : SetsFlags s t d ↔ SetsBits s t (Selects s d) :=
  Iff.rfl

theorem SetsBits.congr {s t : State} {P Q : Nat → Nat → Prop} (h : SetsBits s t P)
    (hPQ : ∀ off j, P off j ↔ Q off j) : SetsBits s t Q := by
  have heq : P = Q := funext₂ fun off j => propext (hPQ off j)
  exact heq ▸ h

theorem SetsBits.trans {s t u : State} {P Q : Nat → Nat → Prop} (hst : SetsBits s t P) (htu : SetsBits t u Q) :
    SetsBits s u fun off j => P off j ∨ Q off j := by
  obtain ⟨hsome, hnone⟩ := hst
  obtain ⟨hsome', hnone'⟩ := htu
  refine ⟨fun off b hb => ?_, fun off ho => hnone' off (hnone off ho)⟩
  obtain ⟨b₁, hb₁, hbits₁⟩ := hsome off b hb
  obtain ⟨b₂, hb₂, hbits₂⟩ := hsome' off b₁ hb₁
  exact ⟨b₂, hb₂, fun j hj => by rw [hbits₂ j hj, hbits₁ j hj, or_assoc]⟩

/-- The bits set determine the buffer. -/
theorem SetsBits.memRead_eq {s t u : State} {P Q : Nat → Nat → Prop} (ht : SetsBits s t P) (hu : SetsBits s u Q)
    (hPQ : ∀ off j, P off j ↔ Q off j) (off : Nat) : t.memRead off = u.memRead off := by
  obtain ⟨hsome, hnone⟩ := ht
  obtain ⟨hsome', hnone'⟩ := hu
  cases hs : s.memRead off with
  | none => rw [hnone off hs, hnone' off hs]
  | some b =>
    obtain ⟨b₁, hb₁, hbits₁⟩ := hsome off b hs
    obtain ⟨b₂, hb₂, hbits₂⟩ := hsome' off b hs
    have hbyte : b₁ = b₂ := BitVec.eq_of_getLsbD_eq fun j hj =>
      Bool.eq_iff_iff.2 (by rw [hbits₁ j hj, hbits₂ j hj, hPQ])
    rw [hb₁, hb₂, hbyte]

/-- Two states that meet the invariant and agree on every byte list the same cells. -/
theorem State.Inv.mem_ext {s t : State} (hs : s.Inv) (ht : t.Inv) (h : ∀ off, s.memRead off = t.memRead off) :
    s.mem = t.mem :=
  State.mem_ext hs.memWf ht.memWf hs.mem_inBuffer ht.mem_inBuffer h

/-! ### Two INSERTs in a row -/

/-- An INSERT leaves what any digest selects. -/
theorem selects_of_insert {s : State} {d : Digest} {m : List Host.Cell} {r : Response} (ha : s.active = true)
    (hset : SetsFlags s { s with mem := m } d) (d' : Digest) (off j : Nat) :
    Selects (State.push { s with mem := m } r) d' off j ↔ Selects s d' off j :=
  exists_congr fun k => exists_congr fun p => and_congr_right fun hk => by
    rw [eval_push, eval_of_setsFlags ha rfl hset hk]
    rfl

/-- With every run good, a second INSERT ends OK too, and the two have set what either digest selects. -/
theorem State.Inv.exec_insert_twice {s : State} {d : Digest} (h : s.Inv) (ha : s.active = true)
    (hf : s.fault = false) (hv : ∀ k, k < s.hashCount.toNat → ∃ p, eval s k d = .value p) (d' : Digest) :
    ∃ m m', exec (.insert d) s = .next (State.push { s with mem := m } ⟨.ok, 0x21, 0⟩) ∧
      exec (.insert d') (State.push { s with mem := m } ⟨.ok, 0x21, 0⟩) =
        .next ((State.push { s with mem := m' } ⟨.ok, 0x21, 0⟩).push ⟨.ok, 0x21, 0⟩) ∧
      SetsFlags s { s with mem := m } d ∧
      SetsBits s { s with mem := m' } fun off j => Selects s d off j ∨ Selects s d' off j := by
  obtain ⟨m, hexec, hset⟩ := h.exec_insert_ok ha hf hv
  have hv' : ∀ k, k < s.hashCount.toNat →
      ∃ p, eval (State.push { s with mem := m } ⟨.ok, 0x21, 0⟩) k d' = .value p := fun k hk => by
    rw [eval_push, eval_of_setsFlags ha rfl hset hk]
    exact h.eval_value_digest ha d' hk (hv k hk)
  obtain ⟨m', hexec', hset'⟩ := (h.of_exec hexec).exec_insert_ok ha hf hv'
  have hbits := setsFlags_iff_setsBits.1 hset
  have hbits' := (setsFlags_iff_setsBits.1 hset').congr (selects_of_insert ha hset d')
  exact ⟨m, m', hexec, hexec', hset, hbits.trans hbits'⟩

/-- An INSERT that ended OK found every run good. -/
theorem insert_values_of_ok {s t : State} {d : Digest} (hexec : exec (.insert d) s = .next t)
    (hr : t.rsps = s.rsps ++ [Response.word ⟨.ok, 0x21, 0⟩]) :
    s.fault = false ∧ s.active = true ∧ ∀ k, k < s.hashCount.toNat → ∃ p, eval s k d = .value p := by
  cases exec_next hexec with
  | refused e hok _ _ heq =>
    subst heq
    exact absurd (State.push_status_inj rfl hr).symm hok
  | insert _ ps _ hi hf ha hps _ _ =>
    cases hi
    refine ⟨hf, ha, fun k hk => ?_⟩
    obtain ⟨p, -, hp⟩ := (positionsUpTo_eq_value.1 hps).2 k hk
    exact ⟨p, hp⟩
  | tableFault _ _ _ _ _ _ _ _ heq =>
    subst heq
    cases State.push_status_inj rfl hr
  | read _ hreads _ => cases hreads
  | config _ _ _ hi | release hi | sreset hi | bufwr _ _ hi => cases hi

/-- Settles O40: the flags set before are those the digest selects again. -/
theorem insertIsIdempotent : Obligations.InsertIsIdempotent := by
  intro s t d h hexec hr
  obtain ⟨hf, ha, hv⟩ := insert_values_of_ok hexec hr
  obtain ⟨m, m', hfirst, hsecond, hset, hset'⟩ := h.exec_insert_twice ha hf hv d
  cases hfirst.symm.trans hexec
  have ht := h.of_exec hfirst
  have hmem : m' = m := (ht.of_exec hsecond).mem_ext ht (hset'.memRead_eq hset fun _ _ => or_self_iff)
  rw [hsecond, hmem]
  rfl

/-- A refusal of INSERT does not depend on the digest, and leaves the checks as they are. -/
theorem exec_insert_twice_refused {s t u : State} {d d' : Digest} {e : Status}
    (he : firstCheck (.insert d) s = some e) (ht : exec (.insert d) s = .next t) (hu : exec (.insert d') t = .next u) :
    u = (s.push ⟨e, 0x21, 0⟩).push ⟨e, 0x21, 0⟩ := by
  cases (exec_of_firstCheck he).symm.trans ht
  cases (exec_of_firstCheck (i := .insert d') (s := s.push ⟨e, 0x21, 0⟩) he).symm.trans hu
  rfl

/-- The table fault of an INSERT does not depend on the digest, and a second INSERT is refused. -/
theorem exec_insert_twice_tableFault {s t u : State} {d d' : Digest} {off : Nat}
    (hfirst : exec (.insert d) s = .next ((s.faultedAt off).push ⟨.eTable, 0x21, 0⟩))
    (ht : exec (.insert d) s = .next t) (hu : exec (.insert d') t = .next u) :
    u = ((s.faultedAt off).push ⟨.eTable, 0x21, 0⟩).push ⟨.eFaulted, 0x21, 0⟩ := by
  cases hfirst.symm.trans ht
  cases (exec_of_firstCheck (firstCheck_faulted (i := .insert d') rfl rfl)).symm.trans hu
  rfl

/-- Settles O41: INSERTs that are refused or fault do so for either digest; those that end OK set the same flags in
either order. -/
theorem insertsCommute : Obligations.InsertsCommute := by
  intro s t u t' u' d d' h ht hu ht' hu'
  rcases h.insert_cases d with ⟨e, he⟩ | ⟨hf, ha, k, off, hk, hfault, hbefore⟩ | ⟨hf, ha, hv⟩
  · rw [exec_insert_twice_refused he ht hu, exec_insert_twice_refused (d := d') he ht' hu']
  · have hfault' := (eval_tableFault_digest s d d' k off).1 hfault
    have hbefore' : ∀ j, j < k → ∃ p, eval s j d' = .value p := fun j hj =>
      h.eval_value_digest ha d' (hj.trans hk) (hbefore j hj)
    rw [exec_insert_twice_tableFault (execInsert_tableFault ha hf hk hfault hbefore) ht hu,
      exec_insert_twice_tableFault (execInsert_tableFault ha hf hk hfault' hbefore') ht' hu']
  · obtain ⟨m₁, m, hfirst, hsecond, -, hset⟩ := h.exec_insert_twice ha hf hv d'
    obtain ⟨m₁', m', hfirst', hsecond', -, hset'⟩ :=
      h.exec_insert_twice ha hf (fun k hk => h.eval_value_digest ha d' hk (hv k hk)) d
    cases hfirst.symm.trans ht
    cases hsecond.symm.trans hu
    cases hfirst'.symm.trans ht'
    cases hsecond'.symm.trans hu'
    have hmem : m = m' := ((h.of_exec ht).of_exec hu).mem_ext ((h.of_exec ht').of_exec hu')
      (hset.memRead_eq hset' fun _ _ => or_comm)
    rw [hmem]

end Sys2Proof.Machine
end
